-- ==== Sys2Proof/Word.lean ====
section
/-! DEFINITION. The word types: a byte, the 9-bit address of `20_memory.md` R30, the 3-bit flags value and the
index of a register. -/

namespace Sys2Proof

/-- A cell, a register value or an instruction byte: 8 bits, unsigned (`00_scope.md` R5, R6). -/
abbrev Byte := BitVec 8

/-- An address inside the core and the program counter: 9 bits, so that 256 can be seen (`20_memory.md` R30,
`10_state.md` R13, decision D2). -/
abbrev Addr := BitVec 9

/-- A value of the flags register: bit 0 Equal, bit 1 Greater, bit 2 Less (`10_state.md` R15). -/
abbrev FlagBits := BitVec 3

/-- The index of a general register, 0 to 7 (`10_state.md` R11). -/
abbrev Reg := Fin 8

end Sys2Proof
end

