-- ==== Sys2Proof/Config.lean ====
section
/-! DEFINITION. What the spec fixes about the hardware as a whole, and the OPEN parameters a model takes as
arguments (`00_scope.md` R5): the fetch window and the opcode map. The other two, MEM_INIT and IMAGE, are arguments
of `Sys2Proof.Machine.boot`. -/

namespace Sys2Proof

/-- The number of memory cells, MEM_SIZE (`00_scope.md` R5, `10_state.md` R18). -/
def memSize : Nat := 256

/-- The register that is the stack pointer (`10_state.md` R12). -/
def spReg : Reg := 7

/-- SP_RESET, stated by the source (`00_scope.md` R5, `10_state.md` R12). -/
def spReset : Byte := 0xF4

/-- The 13 mnemonics, in the order of the table of `30_encoding.md` R47. -/
inductive Mnemonic where
  | hlt | ldi | prn | mul | add | cmp | push | pop | call | ret | jmp | jeq | jne
  deriving DecidableEq, Repr

/-- FETCH_WINDOW, the OPEN parameter of `40_execution_cycle.md` R63 (decision D3). -/
inductive FetchWindow where
  /-- exactly the operand bytes the opcode has are read, after decoding (the spec's default) -/
  | arity
  /-- the two bytes after the opcode are read for every instruction, before decoding -/
  | always2
  deriving DecidableEq, Repr

/-- OPCODE_MAP: which byte each mnemonic has (`30_encoding.md` R47, decision D1). -/
abbrev OpcodeMap := Mnemonic → Byte

/-- The one constraint the source puts on the map: the 13 values are distinct (`30_encoding.md` R47). -/
abbrev DistinctOpcodes (m : OpcodeMap) : Prop := ∀ k k' : Mnemonic, m k = m k' → k = k'

/-- The OPEN parameters a step depends on (`00_scope.md` R5). -/
structure Config where
  window : FetchWindow
  opcodes : OpcodeMap

end Sys2Proof
end

