-- ==== Sys2Proof/Machine/State.lean ====
section
/-! DEFINITION. The state of one core: the tuple of `10_state.md` R10, which R21 says is all there is. -/

namespace Sys2Proof.Machine

/-- The run state RUN (`10_state.md` R16). -/
inductive RunState where
  | running
  | halted
  | error
  deriving DecidableEq, Repr

/-- The kinds of fault the hardware can record (`60_exceptions.md` R110). -/
inductive FaultKind where
  | outOfRangeAccess
  | unknownOpcode
  | invalidRegister
  | unsupportedAluOperation
  deriving DecidableEq, Repr

/-- The fault record ERR (`10_state.md` R17). It means something only while RUN is Error. -/
structure ErrorRecord where
  kind : FaultKind
  /-- the offending address, the opcode byte, the operand byte, or 0, by kind -/
  info : Addr
  /-- PC at the raise -/
  pc : Addr
  deriving DecidableEq, Repr

/-- The 256 cells, as the list of those that differ from what an unlisted address reads as, addresses strictly
rising (`Memory.wf` in Ops). -/
structure Memory where
  cells : List Host.Cell
  deriving DecidableEq, Repr

/-- The complete state of one core (`10_state.md` R10). -/
structure State where
  /-- x[0] to x[7]; x[7] is the stack pointer (R11, R12) -/
  regs : Vector Byte 8
  /-- the program counter (R13) -/
  pc : Addr
  /-- the flags register (R15) -/
  fl : FlagBits
  /-- the run state (R16) -/
  run : RunState
  /-- the fault record (R17) -/
  err : ErrorRecord
  /-- the one memory (R18) -/
  mem : Memory
  /-- the values PRN has handed over, oldest first (R19) -/
  out : List Byte
  deriving DecidableEq, Repr

/-- Why `step` takes no step. These are not the hardware's faults (those are `FaultKind`, and taking one is a next
state): they say that the core has no enabled step. -/
inductive Fault where
  /-- Raised by `stepWith` when RUN is Halted: no step is enabled (`40_execution_cycle.md` R60). Safe: the hardware
  takes no step either. -/
  | coreHalted
  /-- Raised by `stepWith` when RUN is Error: no step is enabled (`40_execution_cycle.md` R60). Safe: the hardware
  takes no step either. -/
  | coreInError
  deriving DecidableEq, Repr

/-- Why the model gives an instruction no meaning. -/
inductive Refusal where
  /-- An arm of `exec` for an instruction not modelled yet. Safe. No arm answers it: all 13 have their meaning. -/
  | notModelled (mnemonic : String)
  deriving DecidableEq, Repr

/-- The state right after reset (`10_state.md` R25), with nothing loaded. Stated by the source: x[7] and RUN. The
spec's own decisions: x[0] to x[6] (log 6), PC (log 8), FL (log 7), memory all 0x00 (log 9). The model's choice, of
no effect: ERR (log 16). -/
def State.reset : State where
  regs := #v[0, 0, 0, 0, 0, 0, 0, spReset]
  pc := 0
  fl := 0
  run := .running
  err := { kind := .outOfRangeAccess, info := 0, pc := 0 }
  mem := { cells := [] }
  out := []

end Sys2Proof.Machine
end

