-- ==== Sys2Proof/Machine/Ops.lean ====
section
/-! DEFINITION. The named operations on the state: registers, program counter, flags, output, the memory and its two
primitives, the stack pointer unit, and taking a fault. Instructions are written over these alone. -/

namespace Sys2Proof.Machine

/-- What one instruction or one step answers. -/
abbrev Result := Host.Outcome State Fault Refusal

/-! ### Fields -/

def State.setRegs (s : State) (v : Vector Byte 8) : State := { s with regs := v }
def State.setPc (s : State) (v : Addr) : State := { s with pc := v }
/-- `FL <- v` writes all three bits (`00_scope.md` R7). -/
def State.setFl (s : State) (v : FlagBits) : State := { s with fl := v }
def State.setRun (s : State) (v : RunState) : State := { s with run := v }
def State.setErr (s : State) (v : ErrorRecord) : State := { s with err := v }
def State.setMem (s : State) (v : Memory) : State := { s with mem := v }
def State.setOut (s : State) (v : List Byte) : State := { s with out := v }

/-! ### Registers, program counter, output -/

/-- `x[i]` (`00_scope.md` R7). No register is hardwired (`10_state.md` R11). -/
def State.reg (s : State) (i : Reg) : Byte := s.regs[i]

/-- `x[i] <- v` (`00_scope.md` R7). Entry 7 is the stack pointer, one storage for both (`10_state.md` R12). -/
def State.setReg (s : State) (i : Reg) (v : Byte) : State := s.setRegs (s.regs.set i v)

/-- `SP`, which is `x[7]` (`10_state.md` R12). -/
def State.sp (s : State) : Byte := s.reg spReg

/-- `zext_9` of an 8-bit value (`00_scope.md` R7). -/
def zext9 (v : Byte) : Addr := v.setWidth 9

/-- The implicit advance, a 9-bit sum that is never reduced modulo 256 (`40_execution_cycle.md` R67, decision D2;
log 4). -/
def State.advance (s : State) (len : Nat) : State := s.setPc (s.pc + BitVec.ofNat 9 len)

/-- A control transfer: the 8-bit target zero-extended (`44_control.md` R106). -/
def State.jumpTo (s : State) (target : Byte) : State := s.setPc (zext9 target)

/-- `emit(v)` (`00_scope.md` R7, `10_state.md` R19): the sink always accepts. -/
def State.emit (s : State) (v : Byte) : State := s.setOut (s.out ++ [v])

/-! ### Taking a fault -/

/-- A fault about to be raised: its kind and its info (`60_exceptions.md` R110). -/
structure Raised where
  kind : FaultKind
  info : Addr
  deriving DecidableEq, Repr

/-- `raise Kind(info)`: ERR and RUN are written and nothing else changes; there is no handler and no way back
(`60_exceptions.md` R115, R118). -/
def raise (e : Raised) (s : State) : State :=
  (s.setErr { kind := e.kind, info := e.info, pc := s.pc }).setRun .error

/-- The numeric code of a fault kind (`60_exceptions.md` R110, decision D14). -/
def faultCode : FaultKind → Nat
  | .outOfRangeAccess => 1
  | .unknownOpcode => 2
  | .invalidRegister => 3
  | .unsupportedAluOperation => 4

/-- The status interface: ERR has a meaning only while RUN is Error (`10_state.md` R17, R24). -/
def State.status (s : State) : Option ErrorRecord :=
  if s.run = .error then some s.err else none

/-! ### Memory -/

/-- What an unlisted address reads as. DESIGN CHOICE: the spec's default for MEM_INIT, 0x00 (decision D7, log 9). -/
def initByte : Byte := 0x00

/-- The form every memory has: addresses below 256 and strictly rising, no entry equal to `initByte`. -/
abbrev Memory.wf (m : Memory) : Prop :=
  m.cells.Pairwise (fun p q => p.1 < q.1) ∧ ∀ p ∈ m.cells, p.1 < memSize ∧ p.2 ≠ initByte

/-- The byte a cell list holds at an address. -/
def cellAt (a : Nat) : List Host.Cell → Byte
  | [] => initByte
  | (b, v) :: rest => if b = a then v else cellAt a rest

/-- `M[a]` (`10_state.md` R18). -/
def Memory.read (m : Memory) (a : Nat) : Byte := cellAt a m.cells

/-- Put a cell in front of the first cell with a higher address. -/
def insertCell (a : Nat) (v : Byte) : List Host.Cell → List Host.Cell
  | [] => [(a, v)]
  | (b, w) :: rest => if a < b then (a, v) :: (b, w) :: rest else (b, w) :: insertCell a v rest

/-- `M[a] <- v`: the one cell changes and nothing else (`20_memory.md` R32). -/
def Memory.write (m : Memory) (a : Nat) (v : Byte) : Memory :=
  let others := m.cells.filter fun p => p.1 != a
  { cells := if v = initByte then others else insertCell a v others }

/-- The memory whose 256 cells are given by a function of the address. -/
def Memory.ofFn (f : Nat → Byte) : Memory :=
  { cells := ((List.range memSize).map fun a => (a, f a)).filter fun p => p.2 != initByte }

/-- `MemRead(addr, 1)` (`20_memory.md` R31): above 255 the out-of-range fault with the offending address. -/
def memRead (addr : Addr) (s : State) : Except Raised Byte :=
  if addr.toNat < memSize then .ok (s.mem.read addr.toNat)
  else .error { kind := .outOfRangeAccess, info := addr }

/-- `MemWrite(addr, 1, v)` (`20_memory.md` R32, R33): above 255 the fault and no cell written; else `v mod 256` is
stored (decision D10, log 12). -/
def memWrite (addr : Addr) (v : Addr) (s : State) : Except Raised State :=
  if addr.toNat < memSize then .ok (s.setMem (s.mem.write addr.toNat (v.setWidth 8)))
  else .error { kind := .outOfRangeAccess, info := addr }

/-! ### The stack pointer unit -/

/-- `sp_dec()`, modulo 256 (`43_stack.md` R95, decision D8, log 10). -/
def spDec (s : State) : State := s.setReg spReg (s.sp - 1)

/-- `sp_inc()`, modulo 256 (`43_stack.md` R95, decision D8, log 10). -/
def spInc (s : State) : State := s.setReg spReg (s.sp + 1)

/-- Where PUSH and CALL store: `x[7]` after the decrement (`20_memory.md` R34). -/
def pushAddress (s : State) : Addr := zext9 (spDec s).sp

/-- Where POP and RET read: `x[7]` before the increment (`20_memory.md` R34). -/
def popAddress (s : State) : Addr := zext9 s.sp

/-- `push(v)` (`43_stack.md` R95): decrement, then store at the new SP a value that may be read from the state after
the decrement (`43_stack.md` R96, R99), and go on. The store is always in range; were it not, the fault would be
raised as `00_scope.md` R7 says. -/
def pushThen (value : State → Addr) (s : State) (k : State → State) : Result :=
  match memWrite (pushAddress s) (value (spDec s)) (spDec s) with
  | .ok t => .next (k t)
  | .error e => .next (raise e (spDec s))

/-- The read half of `pop()` (`43_stack.md` R95): the byte at SP, handed on before any increment. -/
def popThen (s : State) (k : Byte → State) : Result :=
  match memRead (popAddress s) s with
  | .ok v => .next (k v)
  | .error e => .next (raise e s)

end Sys2Proof.Machine
end

