-- ==== Sys2Proof/Machine/Flags.lean ====
section
/-! DEFINITION. The flags register's values: what CMP writes and what JEQ and JNE read (`10_state.md` R15,
`42_alu.md` R85, R91). -/

namespace Sys2Proof.Machine

/-- Only Equal set: bit 0 (`10_state.md` R15). -/
def flagE : FlagBits := 0b001

/-- Only Greater set: bit 1 (`10_state.md` R15). -/
def flagG : FlagBits := 0b010

/-- Only Less set: bit 2 (`10_state.md` R15). -/
def flagL : FlagBits := 0b100

/-- The flags of an unsigned comparison: exactly one bit set (`42_alu.md` R85, R88). -/
def flagsOfCompare (a b : Byte) : FlagBits :=
  if a.toNat = b.toNat then flagE
  else if b.toNat < a.toNat then flagG
  else flagL

/-- `FL[0]`, the only bit a branch looks at (`44_control.md` R104, R105). -/
def State.equalFlag (s : State) : Bool := s.fl.getLsbD 0

end Sys2Proof.Machine
end

