-- ==== Sys2Proof/Machine/Operands.lean ====
section
/-! DEFINITION. The operand forms: a register operand byte and its check (`30_encoding.md` R49,
`40_execution_cycle.md` R65), and the `alu_8bit` block with its two register operands (`42_alu.md` R85). LDI's
immediate is its byte itself (R50) and needs no operation. -/

namespace Sys2Proof.Machine

/-- The register an operand byte names: the whole byte, 0 to 7, nothing masked (`30_encoding.md` R49, decision D9,
log 11). -/
def regOf (b : Byte) : Option Reg :=
  if h : b.toNat < 8 then some ⟨b.toNat, h⟩ else none

/-- The operand byte that names a register. -/
def regByte (r : Reg) : Byte := BitVec.ofNat 8 r.val

/-- The fault of a register operand above 7 (`60_exceptions.md` R113). -/
def invalidRegister (b : Byte) : Raised := { kind := .invalidRegister, info := zext9 b }

/-- Run an instruction with one register operand: checked before any state changes (`40_execution_cycle.md` R65). -/
def withReg (a : Byte) (s : State) (k : Reg → Result) : Result :=
  match regOf a with
  | some r => k r
  | none => .next (raise (invalidRegister a) s)

/-- Run an instruction with two register operands, `opA` checked before `opB` (`40_execution_cycle.md` R65). -/
def withRegs (a b : Byte) (s : State) (k : Reg → Reg → Result) : Result :=
  withReg a s fun ra => withReg b s fun rb => k ra rb

/-- The operation input of the `alu_8bit` block (`42_alu.md` R85). `unsupported` stands for every operation other
than the three (R90); no decoder output drives it (decision D18, log 20). -/
inductive AluOp where
  | add
  | mul
  | cmp
  | unsupported
  deriving DecidableEq, Repr

/-- What the block answers: an 8-bit result, a flags value, or its fault (`42_alu.md` R85). -/
inductive AluOut where
  | value (y : Byte)
  | flags (f : FlagBits)
  | fault (e : Raised)
  deriving DecidableEq, Repr

/-- The `alu_8bit` block, a pure function (`42_alu.md` R85, R89): the exact sum or product is reduced modulo 256. -/
def alu (op : AluOp) (a b : Byte) : AluOut :=
  match op with
  | .add => .value (BitVec.ofNat 8 ((a.toNat + b.toNat) % 256))
  | .mul => .value (BitVec.ofNat 8 ((a.toNat * b.toNat) % 256))
  | .cmp => .flags (flagsOfCompare a b)
  | .unsupported => .fault { kind := .unsupportedAluOperation, info := 0 }

/-- An ALU instruction of registers `ra` and `rb`: a result goes back to `ra`, a flags value to FL, and `pc` advances
by 3 (`42_alu.md` R85 to R88). -/
def aluStep (op : AluOp) (ra rb : Reg) (s : State) : Result :=
  match alu op (s.reg ra) (s.reg rb) with
  | .value y => .next ((s.setReg ra y).advance 3)
  | .flags f => .next ((s.setFl f).advance 3)
  | .fault e => .next (raise e s)

end Sys2Proof.Machine
end

