-- ==== Sys2Proof/Machine/Arith.lean ====
section
/-! DEFINITION. MUL, ADD, CMP (`42_alu.md`). -/

namespace Sys2Proof.Machine

/-- MUL regA, regB (`42_alu.md` R86): no flag is written. -/
def execMul (a b : Byte) (s : State) : Result := withRegs a b s fun ra rb => aluStep .mul ra rb s

/-- ADD regA, regB (`42_alu.md` R87): no flag is written. -/
def execAdd (a b : Byte) (s : State) : Result := withRegs a b s fun ra rb => aluStep .add ra rb s

/-- CMP regA, regB (`42_alu.md` R88): all three flags are written, no register. -/
def execCmp (a b : Byte) (s : State) : Result := withRegs a b s fun ra rb => aluStep .cmp ra rb s

end Sys2Proof.Machine
end

