-- ==== Sys2Proof/Machine/Control.lean ====
section
/-! DEFINITION. CALL, RET, JMP, JEQ, JNE (`44_control.md`). -/

namespace Sys2Proof.Machine

/-- The return address of a CALL: `pc + 2`, 9 bits (`44_control.md` R101). -/
def returnAddress (s : State) : Addr := s.pc + 2

/-- CALL regA (`44_control.md` R101): the target is read after the push; the store cuts the return address to a byte
(decision D10, log 12). -/
def execCall (a : Byte) (s : State) : Result :=
  withReg a s fun r => pushThen (fun _ => returnAddress s) s fun t => t.jumpTo (t.reg r)

/-- RET (`44_control.md` R102). -/
def execRet (s : State) : Result := popThen s fun v => (spInc s).jumpTo v

/-- JMP regA (`44_control.md` R103). -/
def execJmp (a : Byte) (s : State) : Result := withReg a s fun r => .next (s.jumpTo (s.reg r))

/-- JEQ regA (`44_control.md` R104): the operand is checked whether or not the branch is taken. -/
def execJeq (a : Byte) (s : State) : Result :=
  withReg a s fun r => .next (if s.equalFlag then s.jumpTo (s.reg r) else s.advance 2)

/-- JNE regA (`44_control.md` R105): the test is "E is 0". -/
def execJne (a : Byte) (s : State) : Result :=
  withReg a s fun r => .next (if s.equalFlag then s.advance 2 else s.jumpTo (s.reg r))

end Sys2Proof.Machine
end

