-- ==== Sys2Proof/Machine/Stack.lean ====
section
/-! DEFINITION. PUSH, POP (`43_stack.md`). Register 7 as the operand follows the written order of the actions (R99,
decision D19, log 21). -/

namespace Sys2Proof.Machine

/-- PUSH regA (`43_stack.md` R96): `x[a]` is read after the decrement. -/
def execPush (a : Byte) (s : State) : Result :=
  withReg a s fun r => pushThen (fun u => zext9 (u.reg r)) s fun t => t.advance 2

/-- POP regA (`43_stack.md` R97): the increment comes after the register write. -/
def execPop (a : Byte) (s : State) : Result :=
  withReg a s fun r => popThen s fun v => (spInc (s.setReg r v)).advance 2

end Sys2Proof.Machine
end

