-- ==== Sys2Proof/Machine/SystemData.lean ====
section
/-! DEFINITION. HLT, LDI, PRN (`41_system_data.md`). -/

namespace Sys2Proof.Machine

/-- HLT (`41_system_data.md` R80): RUN <- Halted, `pc` unchanged (decision D12, log 14). -/
def execHlt (s : State) : Result := .next (s.setRun .halted)

/-- LDI regA, immediate (`41_system_data.md` R81): any immediate byte, used as it is. -/
def execLdi (a imm : Byte) (s : State) : Result :=
  withReg a s fun r => .next ((s.setReg r imm).advance 3)

/-- PRN regA (`41_system_data.md` R82). -/
def execPrn (a : Byte) (s : State) : Result :=
  withReg a s fun r => .next ((s.emit (s.reg r)).advance 2)

end Sys2Proof.Machine
end

