-- ==== Sys2Proof/Syntax.lean ====
section
/-! DEFINITION. The instructions: one constructor per row of spec/opcode_table.json, with the operand bytes as
they stand in the instruction (`30_encoding.md` R45, R46). A register operand is kept as its whole byte, because a
byte above 7 is a legal thing to fetch and raises InvalidRegister when the instruction is executed (R49). -/

namespace Sys2Proof

/-- One fetched instruction. `regA` and `regB` are register operand bytes, `imm` is LDI's immediate byte. -/
inductive Instr where
  | hlt
  | ldi (regA imm : Byte)
  | prn (regA : Byte)
  | mul (regA regB : Byte)
  | add (regA regB : Byte)
  | cmp (regA regB : Byte)
  | push (regA : Byte)
  | pop (regA : Byte)
  | call (regA : Byte)
  | ret
  | jmp (regA : Byte)
  | jeq (regA : Byte)
  | jne (regA : Byte)
  deriving DecidableEq, Repr

end Sys2Proof
end

