-- ==== Sys2Proof/WellFormed.lean ====
section
/-! DEFINITION. Which instructions are well formed: every register operand byte names a register, 0 to 7
(`30_encoding.md` R49, R52; `40_execution_cycle.md` R65). An ill-formed instruction still has a meaning: it raises
InvalidRegister. -/

namespace Sys2Proof

/-- The operand bytes of an instruction that name registers, `opA` before `opB` (`30_encoding.md` R46). LDI's
second operand is an immediate and is not among them. -/
def Instr.regOperands : Instr → List Byte
  | .hlt => []
  | .ldi a _ => [a]
  | .prn a => [a]
  | .mul a b => [a, b]
  | .add a b => [a, b]
  | .cmp a b => [a, b]
  | .push a => [a]
  | .pop a => [a]
  | .call a => [a]
  | .ret => []
  | .jmp a => [a]
  | .jeq a => [a]
  | .jne a => [a]

/-- Every register operand byte is at most 7: bits [7:3] of it are zero (`30_encoding.md` R49, R52). -/
def Instr.wf (i : Instr) : Bool := i.regOperands.all fun b => decide (b.toNat ≤ 7)

end Sys2Proof
end

