-- ==== Sys2Proof/Decode.lean ====
section
/-! DEFINITION. The decoder, total on any bytes and refusing by name, and the encoder, both written from the one
opcode map (`30_encoding.md` R45 to R54). The decoder matches the whole opcode byte (R46, R48) and tells the length
from it alone (R54). -/

namespace Sys2Proof

/-- The numeric opcode values of `30_encoding.md` R47. PRESUMED: the source gives none, the spec takes the standard
LS-8 values by decision D1 (log 3). -/
def standardOpcodes : OpcodeMap
  | .hlt => 0x01
  | .ldi => 0x82
  | .prn => 0x47
  | .mul => 0xA2
  | .add => 0xA0
  | .cmp => 0xA7
  | .push => 0x45
  | .pop => 0x46
  | .call => 0x50
  | .ret => 0x11
  | .jmp => 0x54
  | .jeq => 0x55
  | .jne => 0x56

/-- The rows of the opcode map, in its order (`30_encoding.md` R47). -/
def mnemonicRows : List Mnemonic :=
  [.hlt, .ldi, .prn, .mul, .add, .cmp, .push, .pop, .call, .ret, .jmp, .jeq, .jne]

/-- The number of operand bytes, a static property of the opcode (`30_encoding.md` R45). -/
def Mnemonic.arity : Mnemonic → Nat
  | .hlt => 0
  | .ldi => 2
  | .prn => 1
  | .mul => 2
  | .add => 2
  | .cmp => 2
  | .push => 1
  | .pop => 1
  | .call => 1
  | .ret => 0
  | .jmp => 1
  | .jeq => 1
  | .jne => 1

/-- The byte length of an instruction, `len = 1 + arity` (`30_encoding.md` R54). -/
def Mnemonic.length (k : Mnemonic) : Nat := 1 + k.arity

/-- The lookup of the opcode byte in the map: all 8 bits of it and nothing else (`40_execution_cycle.md` R64);
`none` is an unknown opcode (`30_encoding.md` R51). -/
def lookupOpcode (m : OpcodeMap) (ir : Byte) : Option Mnemonic :=
  mnemonicRows.find? fun k => m k == ir

/-- The instruction of a mnemonic and its operand bytes (`30_encoding.md` R46). An operand byte the instruction does
not have is not looked at. -/
def assemble (k : Mnemonic) (opA opB : Byte) : Instr :=
  match k with
  | .hlt => .hlt
  | .ldi => .ldi opA opB
  | .prn => .prn opA
  | .mul => .mul opA opB
  | .add => .add opA opB
  | .cmp => .cmp opA opB
  | .push => .push opA
  | .pop => .pop opA
  | .call => .call opA
  | .ret => .ret
  | .jmp => .jmp opA
  | .jeq => .jeq opA
  | .jne => .jne opA

/-- Why a byte sequence is not the beginning of an instruction. -/
inductive DecodeError where
  /-- the first byte is none of the 13 opcodes (`30_encoding.md` R51) -/
  | unknownOpcode (ir : Byte)
  /-- the sequence ends before the instruction does; at the top of memory the core raises OutOfRangeAccess there
  (`40_execution_cycle.md` R63; log 20) -/
  | truncated
  deriving DecidableEq, Repr

/-- Decode the instruction at the head of a byte sequence under an opcode map, and give the bytes after it. -/
def decodeWith (m : OpcodeMap) : List Byte → Except DecodeError (Instr × List Byte)
  | [] => .error .truncated
  | ir :: rest =>
    match lookupOpcode m ir with
    | none => .error (.unknownOpcode ir)
    | some k =>
      match k.arity, rest with
      | 0, bs => .ok (assemble k 0 0, bs)
      | 1, a :: bs => .ok (assemble k a 0, bs)
      | 2, a :: b :: bs => .ok (assemble k a b, bs)
      | _, _ => .error .truncated

/-- The decoder of this hardware: the spec's opcode map (`30_encoding.md` R47). -/
def decode (bytes : List Byte) : Except DecodeError (Instr × List Byte) :=
  decodeWith standardOpcodes bytes

/-- The row of the opcode map an instruction belongs to. -/
def Instr.mnemonic : Instr → Mnemonic
  | .hlt => .hlt
  | .ldi _ _ => .ldi
  | .prn _ => .prn
  | .mul _ _ => .mul
  | .add _ _ => .add
  | .cmp _ _ => .cmp
  | .push _ => .push
  | .pop _ => .pop
  | .call _ => .call
  | .ret => .ret
  | .jmp _ => .jmp
  | .jeq _ => .jeq
  | .jne _ => .jne

/-- The operand bytes of an instruction, in their order in memory (`20_memory.md` R35, `30_encoding.md` R45). -/
def Instr.operandBytes : Instr → List Byte
  | .hlt => []
  | .ldi a imm => [a, imm]
  | .prn a => [a]
  | .mul a b => [a, b]
  | .add a b => [a, b]
  | .cmp a b => [a, b]
  | .push a => [a]
  | .pop a => [a]
  | .call a => [a]
  | .ret => []
  | .jmp a => [a]
  | .jeq a => [a]
  | .jne a => [a]

/-- The bytes of an instruction under an opcode map: the opcode at the lowest address, then the operands
(`20_memory.md` R35). -/
def encodeWith (m : OpcodeMap) (i : Instr) : List Byte := m i.mnemonic :: i.operandBytes

/-- The bytes of an instruction on this hardware. -/
def encode (i : Instr) : List Byte := encodeWith standardOpcodes i

/-- The three bytes of an instruction written as one number, bit 0 the least significant bit of the first byte;
every bit at `nbits` and above is 0. -/
def tableBytes (nbits w : Nat) : List Byte :=
  let v := w % 2 ^ nbits
  [BitVec.ofNat 8 v, BitVec.ofNat 8 (v / 2 ^ 8), BitVec.ofNat 8 (v / 2 ^ 16)]

/-- The instruction the decoder reads from the numbered word of an opcode-table row. -/
def decodeTableWord (nbits w : Nat) : Option Instr :=
  match decode (tableBytes nbits w) with
  | .ok (i, _) => some i
  | .error _ => none

end Sys2Proof
end

