-- ==== Sys2Proof/Machine/Fetch.lean ====
section
/-! DEFINITION. Phases 1 to 4 of a step: the fetch unit and the use of the instruction decoder, for both values of
FETCH_WINDOW (`40_execution_cycle.md` R61 to R64). The latches IR, opA and opB live only inside this function
(`10_state.md` R20, log 24). -/

namespace Sys2Proof.Machine

/-- The parameters this machine runs with: the spec's default window (decision D3, log 5) and its opcode map
(decision D1, log 3). -/
def defaultConfig : Config := { window := .arity, opcodes := standardOpcodes }

/-- Phase 3: a byte that is not in the map raises UnknownOpcode (`40_execution_cycle.md` R64). -/
def decodeOpcode (m : OpcodeMap) (ir : Byte) : Except Raised Mnemonic :=
  match lookupOpcode m ir with
  | some k => .ok k
  | none => .error { kind := .unknownOpcode, info := zext9 ir }

/-- An operand read that is made only when the opcode has the operand. -/
def readOperand (has : Bool) (addr : Addr) (s : State) : Except Raised Byte :=
  if has then memRead addr s else .ok 0

/-- Phases 1 to 4 (`40_execution_cycle.md` R61): the instruction at `pc`, or the fault its fetch raises. Nothing is
written. -/
def fetch (c : Config) (s : State) : Except Raised Instr := do
  let ir ← memRead s.pc s
  match c.window with
  | .always2 =>
    let opA ← memRead (s.pc + 1) s
    let opB ← memRead (s.pc + 2) s
    let k ← decodeOpcode c.opcodes ir
    pure (assemble k opA opB)
  | .arity =>
    let k ← decodeOpcode c.opcodes ir
    let opA ← readOperand (decide (1 ≤ k.arity)) (s.pc + 1) s
    let opB ← readOperand (decide (k.arity = 2)) (s.pc + 2) s
    pure (assemble k opA opB)

/-- The bytes of memory from `pc` up to address 255, at most three: what a byte decoder is given there. -/
def bytesAtPc (s : State) : List Byte :=
  (([0, 1, 2].map fun k => s.pc.toNat + k).filter fun a => decide (a < memSize)).map s.mem.read

/-- Store bytes at consecutive addresses; one above 255 does not exist and is not stored. -/
def placeBytes (a : Nat) : List Byte → Memory → Memory
  | [], m => m
  | b :: rest, m => placeBytes (a + 1) rest (if a < memSize then m.write a b else m)

end Sys2Proof.Machine
end

