-- ==== Sys2Proof/Machine/Cycle.lean ====
section
/-! DEFINITION. The execution state machine: one step of the core under given parameters (`40_execution_cycle.md`
R60, R61). -/

namespace Sys2Proof.Machine

/-- One step. It is enabled only while RUN is Running (R60); a fetch fault is taken as R115 says, with nothing else
changed. -/
def stepWith (c : Config) (s : State) : Result :=
  match s.run with
  | .halted => .fault .coreHalted
  | .error => .fault .coreInError
  | .running =>
    match fetch c s with
    | .error e => .next (raise e s)
    | .ok i => exec i s

end Sys2Proof.Machine
end

