-- ==== Sys2Proof/Machine/Step.lean ====
section
/-! DEFINITION. The step of this machine, and an instruction placed where its next fetch reads. -/

namespace Sys2Proof.Machine

/-- One step with the spec's default parameters (`40_execution_cycle.md` R61). -/
def step (s : State) : Host.Outcome State Fault Refusal := stepWith defaultConfig s

/-- The state with a table row's instruction stored at `pc`, as the load of an image would (`70_reset_and_hazards.md`
R133, log 22). Nothing else changes. -/
def State.withFetchWord (s : State) (nbits w : Nat) : State :=
  s.setMem (placeBytes s.pc.toNat (tableBytes nbits w) s.mem)

end Sys2Proof.Machine
end

