-- ==== Sys2Proof/Machine/Boot.lean ====
section
/-! DEFINITION. The host's moves before the first step: reset and the load of the image (`10_state.md` R24,
`70_reset_and_hazards.md` R130 to R133). They are the host's, not steps of the core (log 13). -/

namespace Sys2Proof.Machine

/-- The state before the first step: every field at its reset value, the image from address 0 in order, MEM_INIT
beyond it (`10_state.md` R25). An image longer than the memory never starts the core (R133, decision D17, log 19). -/
def boot (memInit : Nat → Byte) (image : List Byte) : Option State :=
  if image.length ≤ memSize then
    some (State.reset.setMem (Memory.ofFn fun a => (image[a]?).getD (memInit a)))
  else none

/-- A reset of a core in any state discards the run: no reset keeps its memory (`70_reset_and_hazards.md` R131). -/
def hostReset (_discarded : State) (memInit : Nat → Byte) (image : List Byte) : Option State := boot memInit image

end Sys2Proof.Machine
end

