-- ==== Sys2Proof/Machine/Trace.lean ====
section
/-! DEFINITION. The optional trace tap: a read-only sample of PC, three bytes and the registers
(`60_exceptions.md` R123). Its text format is outside the core. -/

namespace Sys2Proof.Machine

/-- What the tap shows. -/
structure TraceSample where
  pc : Addr
  byte0 : Byte
  byte1 : Byte
  byte2 : Byte
  regs : Vector Byte 8
  deriving DecidableEq, Repr

/-- One byte of the tap. Above address 255 the spec defines nothing, so the value is the free argument `beyond`
(`91_not_in_source.md` N12, log 23). -/
def tapByte (beyond : Nat → Byte) (s : State) (a : Nat) : Byte :=
  if a < memSize then s.mem.read a else beyond a

/-- The tap's sample of a state, for any `beyond`; it raises no fault and changes nothing. -/
def traceTap (beyond : Nat → Byte) (s : State) : TraceSample where
  pc := s.pc
  byte0 := tapByte beyond s s.pc.toNat
  byte1 := tapByte beyond s (s.pc.toNat + 1)
  byte2 := tapByte beyond s (s.pc.toNat + 2)
  regs := s.regs

end Sys2Proof.Machine
end

