-- ==== Sys2Proof/Safety.lean ====
section
/-! DEFINITION. The terms the statements are made of: what stays the same (frames), the invariant of the core, the
final states, the register table of `10_state.md` R22, and sequences of instructions. -/

namespace Sys2Proof.Machine

/-- A state of a run that has met no fault (`40_execution_cycle.md` R70). -/
abbrev Safe (s : State) : Prop := s.run ≠ .error

/-! ### Frames -/

/-- Every register outside `dst` is unchanged. -/
abbrev RegsSameBut (dst : List Reg) (s t : State) : Prop := ∀ r : Reg, r ∉ dst → t.reg r = s.reg r

/-- Every byte of memory is unchanged. -/
def MemSame (s t : State) : Prop := ∀ a : Nat, t.mem.read a = s.mem.read a

/-- Every byte of memory but the one at `p` is unchanged. -/
def MemSameBut (p : Addr) (s t : State) : Prop := ∀ a : Nat, a ≠ p.toNat → t.mem.read a = s.mem.read a

/-- Flags, run state, fault record and output are unchanged. -/
abbrev ControlSame (s t : State) : Prop := t.fl = s.fl ∧ t.run = s.run ∧ t.err = s.err ∧ t.out = s.out

/-! ### The invariant -/

/-- The values FL can hold: none or exactly one bit (`10_state.md` R15). -/
abbrev FlagsLegal (f : FlagBits) : Prop := f = 0 ∨ f = flagE ∨ f = flagG ∨ f = flagL

/-- What holds of the core between steps: memory in its canonical form, PC at most 256 (`10_state.md` R13), FL a
legal value (R15). -/
abbrev State.Inv (s : State) : Prop := s.mem.wf ∧ s.pc.toNat ≤ 256 ∧ FlagsLegal s.fl

/-- What a final state says: Halted stands at a HLT byte (`41_system_data.md` R80, PC after HLT decision D12, log 14);
Error has a record whose `pc` is PC and whose info is what its kind names, for InvalidRegister the first register
operand byte above 7 of the instruction at PC (decisions D9, log 11, and D13, log 15), and never the ALU's kind
(`60_exceptions.md` R110, R115, `42_alu.md` R90). -/
def FinalStateTold (m : OpcodeMap) (s : State) : Prop :=
  (s.run = .halted → s.pc.toNat < memSize ∧ s.mem.read s.pc.toNat = m .hlt) ∧
  (s.run = .error → s.err.pc = s.pc ∧
    match s.err.kind with
    | .outOfRangeAccess => s.err.info.toNat = 256
    | .unknownOpcode => s.pc.toNat < memSize ∧ s.err.info = zext9 (s.mem.read s.pc.toNat) ∧
        lookupOpcode m (s.mem.read s.pc.toNat) = none
    | .invalidRegister => ∃ (k : Mnemonic) (b : Byte), lookupOpcode m (s.mem.read s.pc.toNat) = some k ∧
        s.pc.toNat + k.arity < memSize ∧ s.err.info = zext9 b ∧
        (assemble k (s.mem.read (s.pc.toNat + 1)) (s.mem.read (s.pc.toNat + 2))).regOperands.find?
          (fun x => decide (7 < x.toNat)) = some b
    | .unsupportedAluOperation => False)

/-! ### The register table -/

/-- The registers that bytes name. -/
def regsNamed (bytes : List Byte) : List Reg := bytes.filterMap regOf

/-- The registers an instruction reads in a state: the "reads" column of `10_state.md` R22. -/
def regsRead (i : Instr) (s : State) : List Reg :=
  match i with
  | .hlt => []
  | .ldi _ _ => []
  | .prn a => regsNamed [a]
  | .mul a b => regsNamed [a, b]
  | .add a b => regsNamed [a, b]
  | .cmp a b => regsNamed [a, b]
  | .push a => spReg :: regsNamed [a]
  | .pop _ => [spReg]
  | .call a => spReg :: regsNamed [a]
  | .ret => [spReg]
  | .jmp a => regsNamed [a]
  | .jeq a => if s.equalFlag then regsNamed [a] else []
  | .jne a => if s.equalFlag then [] else regsNamed [a]

/-- The registers an instruction writes: the "writes" column of `10_state.md` R22. -/
def regsWritten (i : Instr) : List Reg :=
  match i with
  | .hlt => []
  | .ldi a _ => regsNamed [a]
  | .prn _ => []
  | .mul a _ => regsNamed [a]
  | .add a _ => regsNamed [a]
  | .cmp _ _ => []
  | .push _ => [spReg]
  | .pop a => regsNamed [a] ++ [spReg]
  | .call _ => [spReg]
  | .ret => [spReg]
  | .jmp _ => []
  | .jeq _ => []
  | .jne _ => []

/-! ### Sequences -/

/-- The meanings of a list of instructions one after the other, stopping where one does not go on. -/
def execAll : List Instr → State → Result
  | [], s => .next s
  | i :: rest, s =>
    match exec i s with
    | .next t => execAll rest t
    | .fault f => .fault f
    | .refused r => .refused r

end Sys2Proof.Machine
end

