-- ==== Sys2Proof/Certificates/Slice0/Obligations.lean ====
section
/-! DEFINITION. The statements for the provers, from the numbered rules of spec/. `regByte r` is the operand byte that
names register `r`, so a statement over all `r : Reg` is over every legal register operand, register 7 included; the
illegal ones are `BadRegisterOperandRaisesInvalidRegister`. A docstring that names a decision D<n> says that the clause
is the spec's own choice, with its log entry. -/

open Sys2Proof Sys2Proof.Machine

/-! ### Encoding -/

/-- Under every opcode map of 13 distinct bytes, decoding the bytes of any instruction, whatever its operand bytes and
whatever follows, gives back that instruction and the bytes that follow (`30_encoding.md` sections 1, 2 and 5). -/
def Obligations.DecodeAfterEncode : Prop :=
  ∀ m : OpcodeMap, DistinctOpcodes m → ∀ (i : Instr) (rest : List Byte),
    decodeWith m (encodeWith m i ++ rest) = .ok (i, rest)

/-- What the decoder reads as an instruction is exactly the encoding of it: each instruction has one byte sequence,
under every opcode map (`30_encoding.md` sections 1 and 2). -/
def Obligations.DecodedBytesAreTheEncoding : Prop :=
  ∀ (m : OpcodeMap) (bytes rest : List Byte) (i : Instr),
    decodeWith m bytes = .ok (i, rest) → bytes = encodeWith m i ++ rest

/-- Words of each family, written out from the tables of `30_encoding.md` R45 to R47 and `95_test_vectors.md`. The
opcode values are the spec's decision D1 (log 3). -/
def Obligations.FamilyWordsDecode : Prop :=
  decode [0b00000001] = .ok (.hlt, []) ∧
  decode [0b10000010, 0x00, 0x08] = .ok (.ldi 0 8, []) ∧
  decode [0b01000111, 0x07, 0xFF] = .ok (.prn 7, [0xFF]) ∧
  decode [0b10100010, 0x00, 0x01] = .ok (.mul 0 1, []) ∧
  decode [0b10100111, 0x03, 0x05] = .ok (.cmp 3 5, []) ∧
  decode [0b01000101, 0x02] = .ok (.push 2, []) ∧
  decode [0b01010000, 0x01] = .ok (.call 1, []) ∧
  decode [0b00010001] = .ok (.ret, []) ∧
  decode [0b01010110, 0x03] = .ok (.jne 3, []) ∧
  decode [0x83, 0x00, 0x00] = .error (.unknownOpcode 0x83) ∧
  decode [0x82, 0x00] = .error .truncated

/-- Under every map of 13 distinct bytes exactly 243 of the 256 byte values are no opcode; under the spec's map 0x00 is
one of them, and so is 0x83, which only has the bit pattern of a 3-byte instruction (`30_encoding.md` sections 2 and 4;
the opcode values are decision D1, log 3). -/
def Obligations.TwoHundredFortyThreeBytesAreNoOpcode : Prop :=
  (∀ m : OpcodeMap, DistinctOpcodes m →
    ((List.range 256).filter fun n => (lookupOpcode m (BitVec.ofNat 8 n)).isNone).length = 243) ∧
  DistinctOpcodes standardOpcodes ∧
  lookupOpcode standardOpcodes 0x00 = none ∧ lookupOpcode standardOpcodes 0x83 = none

/-- `30_encoding.md` R54: the length of an instruction is told from its first byte alone, by the map. Two byte sequences
that begin with the same byte and both decode give instructions of the same mnemonic and length, one more than its
arity, whatever their operand bytes; and in straight-line code PC moves on by that length. -/
def Obligations.LengthComesFromTheOpcodeAlone : Prop :=
  (∀ (m : OpcodeMap) (ir : Byte) (xs ys xrest yrest : List Byte) (i j : Instr),
    decodeWith m (ir :: xs) = .ok (i, xrest) → decodeWith m (ir :: ys) = .ok (j, yrest) →
      i.mnemonic = j.mnemonic ∧ lookupOpcode m ir = some i.mnemonic ∧
      xrest = xs.drop i.mnemonic.arity ∧ yrest = ys.drop i.mnemonic.arity ∧
      (encodeWith m i).length = 1 + i.mnemonic.arity ∧ (encodeWith m j).length = 1 + i.mnemonic.arity) ∧
  (∀ (m : OpcodeMap) (i : Instr) (s t : State), i.wf = true →
    i.mnemonic ∈ [.ldi, .prn, .mul, .add, .cmp, .push, .pop] → exec i s = .next t →
      t.pc = s.pc + BitVec.ofNat 9 (encodeWith m i).length)

/-! ### The step -/

/-- When the bytes at PC decode to an instruction, well formed or not, the step is that instruction's meaning and
nothing around it: on this machine for every PC, and under any opcode map in both fetch windows at PC up to 253
(`40_execution_cycle.md` section 2). At PC 254 and 255 the first clause rests on FETCH_WINDOW = `arity`, which the step
runs with (the spec's default, decision D3, log 5); `always2` is out of range there. -/
def Obligations.StepExecutesTheDecodedInstruction : Prop :=
  (∀ (s : State) (i : Instr) (rest : List Byte), s.run = .running →
    decode (bytesAtPc s) = .ok (i, rest) → step s = exec i s) ∧
  (∀ (c : Config) (s : State) (i : Instr) (rest : List Byte), s.run = .running → s.pc.toNat ≤ 253 →
    decodeWith c.opcodes (bytesAtPc s) = .ok (i, rest) → stepWith c s = exec i s)

/-- When the bytes at PC do not decode, the step of this machine takes the fault that says why: the unknown byte, or
address 256 where memory ends before the instruction does, for PC up to 256 (`40_execution_cycle.md` section 2). That
an unknown byte at 254 or 255 is the fault rests on FETCH_WINDOW = `arity` (decision D3, log 5), and that PC 256 is out
of range and no wrap to 0 on the width of PC (decision D2, log 4). -/
def Obligations.StepTakesTheDecodersRefusalAsAFault : Prop :=
  ∀ s : State, s.run = .running → s.pc.toNat ≤ 256 →
    (∀ ir : Byte, decode (bytesAtPc s) = .error (.unknownOpcode ir) →
      step s = .next (raise { kind := .unknownOpcode, info := zext9 ir } s)) ∧
    (decode (bytesAtPc s) = .error .truncated →
      step s = .next (raise { kind := .outOfRangeAccess, info := 256 } s))

/-- `40_execution_cycle.md` R60: a step is taken exactly when RUN is Running, under every parameter setting; it executes
one instruction or ends in one fault. In Halted and Error none is enabled, however many are asked for. -/
def Obligations.StepIsEnabledExactlyWhileRunning : Prop :=
  ∀ (c : Config) (s : State),
    ((∃ t, stepWith c s = .next t) ↔ s.run = .running) ∧
    (s.run = .running →
      (∃ i, fetch c s = .ok i ∧ stepWith c s = exec i s) ∨
      (∃ e, fetch c s = .error e ∧ stepWith c s = .next (raise e s))) ∧
    (∀ n : Nat, s.run = .halted → Sys2Proof.core.run (n + 1) s = .fault .coreHalted) ∧
    (∀ n : Nat, s.run = .error → Sys2Proof.core.run (n + 1) s = .fault .coreInError)

/-- `10_state.md` R16: RUN starts as Running; it goes to Halted only by HLT and to Error only by a raise (the fetch's or
a register operand's), and Halted and Error are left by no step. -/
def Obligations.RunStateChangesOnlyByHaltAndRaise : Prop :=
  State.reset.run = .running ∧
  ∀ (c : Config) (s t : State), stepWith c s = .next t →
    s.run = .running ∧
    (t.run = .halted ↔ fetch c s = .ok .hlt) ∧
    (t.run = .error ↔ ∃ e : Raised, t = raise e s)

/-- `60_exceptions.md` R118: nothing returns from a fault. Once RUN is Error no step is enabled under any parameters, no
instruction's meaning ever sets RUN back to Running, and no well-formed one's changes ERR. Reset is the only exit: it is
the same whatever the state was. -/
def Obligations.NothingReturnsFromAFault : Prop :=
  (∀ (c : Config) (s : State), s.run = .error → stepWith c s = .fault .coreInError) ∧
  (∀ (i : Instr) (s t : State), exec i s = .next t → t.run = .running → s.run = .running) ∧
  (∀ (i : Instr) (s t : State), i.wf = true → exec i s = .next t → t.err = s.err) ∧
  (∀ (s other t : State) (memInit : Nat → Byte) (image : List Byte),
    hostReset s memInit image = some t → t.run = .running ∧ hostReset other memInit image = some t)

/-- `raise` writes ERR with the kind, the info and PC, sets RUN to Error, and changes nothing else; the core then takes
no step (`60_exceptions.md` section 2; the record is decision D14, log 16). -/
def Obligations.RaiseWritesErrAndRunOnly : Prop :=
  ∀ (k : FaultKind) (info : Addr) (s : State),
    raise { kind := k, info := info } s =
      { s with err := { kind := k, info := info, pc := s.pc }, run := .error } ∧
    (raise { kind := k, info := info } s).status = some { kind := k, info := info, pc := s.pc } ∧
    ∀ c : Config, stepWith c (raise { kind := k, info := info } s) = .fault .coreInError

/-- `40_execution_cycle.md` R64: the lookup compares all 8 bits of the opcode byte and nothing else; a byte not in the
map raises UnknownOpcode with that byte, and the machine does not continue. (Where `always2` reads beyond 255 first,
`FaultPriorityUnderAlways2` says what is raised.) -/
def Obligations.UnknownOpcodeIsRaisedAndStops : Prop :=
  (∀ (m : OpcodeMap) (ir : Byte) (k : Mnemonic), DistinctOpcodes m → (lookupOpcode m ir = some k ↔ m k = ir)) ∧
  (∀ (m : OpcodeMap) (ir : Byte), lookupOpcode m ir = none ↔ ∀ k, m k ≠ ir) ∧
  (∀ (c : Config) (s : State), s.run = .running →
    (s.pc.toNat ≤ 253 ∨ (c.window = .arity ∧ s.pc.toNat ≤ 255)) →
    (∀ k, c.opcodes k ≠ s.mem.read s.pc.toNat) →
    ∃ t, t = raise { kind := .unknownOpcode, info := zext9 (s.mem.read s.pc.toNat) } s ∧
      stepWith c s = .next t ∧ stepWith c t = .fault .coreInError)

/-- Every fault a step takes is precise: nothing but RUN and ERR changes, and the record's `pc` is PC
(`60_exceptions.md` section 2; an inference the spec marks as its own). -/
def Obligations.FaultsArePrecise : Prop :=
  ∀ (c : Config) (s t : State), stepWith c s = .next t → t.run = .error →
    t.regs = s.regs ∧ t.pc = s.pc ∧ t.fl = s.fl ∧ t.mem = s.mem ∧ t.out = s.out ∧ t.err.pc = s.pc

/-- The order of the fault checks under `arity`, each with the ones before it passed (`60_exceptions.md` section 2; the
order is decision D13, log 15; that a register operand byte above 7 is a fault is D9, log 11, and that PC 256 is out of
range D2, log 4). -/
def Obligations.FaultPriorityUnderArity : Prop :=
  ∀ (m : OpcodeMap) (s : State), s.run = .running →
    let stepNow := stepWith { window := .arity, opcodes := m } s
    (256 ≤ s.pc.toNat → stepNow = .next (raise { kind := .outOfRangeAccess, info := s.pc } s)) ∧
    (s.pc.toNat ≤ 255 → ∀ ir, ir = s.mem.read s.pc.toNat →
      (lookupOpcode m ir = none → stepNow = .next (raise { kind := .unknownOpcode, info := zext9 ir } s)) ∧
      (∀ k, lookupOpcode m ir = some k →
        (s.pc.toNat + k.arity ≥ 256 → stepNow = .next (raise { kind := .outOfRangeAccess, info := 256 } s)) ∧
        (s.pc.toNat + k.arity ≤ 255 →
          ∀ i, i = assemble k (s.mem.read (s.pc.toNat + 1)) (s.mem.read (s.pc.toNat + 2)) →
          ∀ b, i.regOperands.find? (fun x => decide (7 < x.toNat)) = some b →
            stepNow = .next (raise { kind := .invalidRegister, info := zext9 b } s))))

/-- The order of the fault checks under `always2`: the three reads, then the opcode, then the registers
(`60_exceptions.md` section 2; the order is decision D13, log 15; that a register operand byte above 7 is a fault is
D9, log 11, and that PC 256 is out of range D2, log 4). -/
def Obligations.FaultPriorityUnderAlways2 : Prop :=
  ∀ (m : OpcodeMap) (s : State), s.run = .running →
    let stepNow := stepWith { window := .always2, opcodes := m } s
    (256 < s.pc.toNat → stepNow = .next (raise { kind := .outOfRangeAccess, info := s.pc } s)) ∧
    (254 ≤ s.pc.toNat → s.pc.toNat ≤ 256 →
      stepNow = .next (raise { kind := .outOfRangeAccess, info := 256 } s)) ∧
    (s.pc.toNat ≤ 253 → ∀ ir, ir = s.mem.read s.pc.toNat →
      (lookupOpcode m ir = none → stepNow = .next (raise { kind := .unknownOpcode, info := zext9 ir } s)) ∧
      (∀ k, lookupOpcode m ir = some k →
        ∀ i, i = assemble k (s.mem.read (s.pc.toNat + 1)) (s.mem.read (s.pc.toNat + 2)) →
        ∀ b, i.regOperands.find? (fun x => decide (7 < x.toNat)) = some b →
          stepNow = .next (raise { kind := .invalidRegister, info := zext9 b } s)))

/-- At PC up to 253, and from 256 on, the two fetch windows give the same step; at 254 and 255 an instruction that fits
executes under `arity` and is out of range under `always2`; whatever `always2` steps without a fault, `arity` steps alike
(`40_execution_cycle.md` section 2; an inference the spec marks as its own). -/
def Obligations.FetchWindowsDifferOnlyAtTheTop : Prop :=
  ∀ (m : OpcodeMap) (s : State), s.run = .running →
    let byArity := stepWith { window := .arity, opcodes := m } s
    let byAlways2 := stepWith { window := .always2, opcodes := m } s
    (s.pc.toNat ≤ 253 ∨ 256 ≤ s.pc.toNat → byArity = byAlways2) ∧
    (∀ k, 254 ≤ s.pc.toNat → s.pc.toNat + k.arity ≤ 255 → lookupOpcode m (s.mem.read s.pc.toNat) = some k →
      byArity = exec (assemble k (s.mem.read (s.pc.toNat + 1)) 0) s ∧
      byAlways2 = .next (raise { kind := .outOfRangeAccess, info := 256 } s)) ∧
    (∀ t, byAlways2 = .next t → Safe t → byArity = .next t)

/-! ### Memory -/

/-- A read gives the byte of an address up to 255 and the out-of-range fault with the address above it; it gives the
value of the most recent write to that cell, whatever was written elsewhere since, and the reset value where nothing was
written (`20_memory.md` section 2; that a written value above 255 reads back as its low 8 bits is decision D10,
log 12). (A read yields no state, so it changes none.) -/
def Obligations.MemoryReadGivesTheLatestWrite : Prop :=
  (∀ (addr : Addr) (s : State),
    (addr.toNat ≤ 255 → memRead addr s = .ok (s.mem.read addr.toNat)) ∧
    (255 < addr.toNat → memRead addr s = .error { kind := .outOfRangeAccess, info := addr })) ∧
  (∀ (addr v : Addr) (later : List (Addr × Addr)) (s t : State), addr.toNat ≤ 255 →
    (∀ w ∈ later, w.1 ≠ addr) →
    List.foldlM (fun u (w : Addr × Addr) => memWrite w.1 w.2 u) s ((addr, v) :: later) = .ok t →
    memRead addr t = .ok (v.setWidth 8)) ∧
  (∀ (addr : Addr) (writes : List (Addr × Addr)) (memInit : Nat → Byte) (image : List Byte) (s t : State),
    addr.toNat ≤ 255 → boot memInit image = some s → (∀ w ∈ writes, w.1 ≠ addr) →
    List.foldlM (fun u (w : Addr × Addr) => memWrite w.1 w.2 u) s writes = .ok t →
    memRead addr t = .ok ((image[addr.toNat]?).getD (memInit addr.toNat)))

/-- A write above 255 is the out-of-range fault and writes no cell; else it stores the value modulo 256 in the one cell
and changes nothing else of the state (`20_memory.md` section 2; the cut to a byte is decision D10, log 12). -/
def Obligations.MemoryWriteChangesOneCell : Prop :=
  ∀ (addr v : Addr) (s : State),
    (255 < addr.toNat → memWrite addr v s = .error { kind := .outOfRangeAccess, info := addr }) ∧
    (addr.toNat ≤ 255 → ∃ t, memWrite addr v s = .ok t ∧
      (t.mem.read addr.toNat).toNat = v.toNat % 256 ∧ MemSameBut addr s t ∧
      t = { s with mem := t.mem })

/-- Two memories in canonical form that read the same everywhere are the same data (the model's form of the 256 cells
of `10_state.md` section 6, log 9). -/
def Obligations.CanonicalMemoriesThatReadAlikeAreEqual : Prop :=
  ∀ m n : Memory, m.wf → n.wf → (∀ a : Nat, a < memSize → m.read a = n.read a) → m = n

/-- Only PUSH and CALL change a byte of memory, and only the one at the decremented SP (`20_memory.md` section 3). -/
def Obligations.OnlyPushAndCallStore : Prop :=
  ∀ (c : Config) (s t : State), stepWith c s = .next t →
    MemSameBut (pushAddress s) s t ∧
    (¬ MemSame s t → ∃ a, fetch c s = .ok (.push a) ∨ fetch c s = .ok (.call a))

/-- A byte that a PUSH stores where the next instruction starts is what the next step decodes: here HLT's opcode, and
the core halts (`20_memory.md` section 6; the wrap of SP is decision D8, log 10; that PC stays at the HLT is D12,
log 14, and that a HLT at 254 or 255 executes is D3's default window, log 5). -/
def Obligations.PushedByteIsFetchedNext : Prop :=
  ∀ (s : State) (r : Reg) (rest : List Byte), s.run = .running →
    decode (bytesAtPc s) = .ok (.push (regByte r), rest) →
    (pushAddress s).toNat = s.pc.toNat + 2 → (spDec s).reg r = standardOpcodes .hlt →
    ∃ t u, step s = .next t ∧ step t = .next u ∧ u.run = .halted ∧ u.pc = s.pc + 2

/-! ### HLT, LDI, PRN -/

/-- HLT: RUN becomes Halted and nothing else changes, PC included (`41_system_data.md` section HLT; the unchanged PC is
decision D12, log 14). -/
def Obligations.HaltStopsAndChangesNothingElse : Prop :=
  ∀ s : State, ∃ t, exec .hlt s = .next t ∧ t.run = .halted ∧ t.pc = s.pc ∧
    RegsSameBut [] s t ∧ MemSame s t ∧ t.fl = s.fl ∧ t.err = s.err ∧ t.out = s.out

/-- LDI: the register gets the immediate byte as it is, register 7 included; PC + 3; nothing else changes
(`41_system_data.md` section LDI). -/
def Obligations.LoadImmediateWritesTheByte : Prop :=
  ∀ (a : Reg) (imm : Byte) (s : State), ∃ t, exec (.ldi (regByte a) imm) s = .next t ∧
    t.reg a = imm ∧ t.pc = s.pc + 3 ∧ RegsSameBut [a] s t ∧ MemSame s t ∧ ControlSame s t

/-- PRN: OUT gains the register's value at its end; PC + 2; nothing else changes (`41_system_data.md` section PRN; OUT
as a sequence of bytes is decision D16, log 18). -/
def Obligations.PrintAppendsTheRegister : Prop :=
  ∀ (a : Reg) (s : State), ∃ t, exec (.prn (regByte a)) s = .next t ∧
    t.out = s.out ++ [s.reg a] ∧ t.pc = s.pc + 2 ∧ RegsSameBut [] s t ∧ MemSame s t ∧
    t.fl = s.fl ∧ t.run = s.run ∧ t.err = s.err

/-- Only PRN adds to OUT, one value, its register's; every other step leaves OUT as it was (`41_system_data.md` section
PRN; decision D16, log 18). -/
def Obligations.OnlyPrintAddsOutput : Prop :=
  ∀ (c : Config) (s t : State), stepWith c s = .next t →
    t.out = s.out ∨ ∃ r : Reg, fetch c s = .ok (.prn (regByte r)) ∧ t.out = s.out ++ [s.reg r]

/-- LDI followed by PRN of the same register hands over the literal (`41_system_data.md` section PRN, the document's
property; decision D16, log 18). -/
def Obligations.PrintAfterLoadGivesTheLiteral : Prop :=
  ∀ (a : Reg) (imm : Byte) (s : State), ∃ t,
    execAll [.ldi (regByte a) imm, .prn (regByte a)] s = .next t ∧
      t.out = s.out ++ [imm] ∧ t.pc = s.pc + 5

/-! ### MUL, ADD, CMP -/

/-- `42_alu.md` R85: the ALU block, for each operation: the sum and the product modulo 256, one flag by the unsigned
comparison, and the UnsupportedAluOperation fault for any other operation. The operands are the values of two registers
the result of ADD and MUL goes back to the first, that of CMP to FL. -/
def Obligations.AluBlockComputes : Prop :=
  ∀ a b : Byte,
    (∃ y, alu .add a b = .value y ∧ y.toNat = (a.toNat + b.toNat) % 256) ∧
    (∃ y, alu .mul a b = .value y ∧ y.toNat = (a.toNat * b.toNat) % 256) ∧
    (a = b → alu .cmp a b = .flags 0b001) ∧
    (a.toNat > b.toNat → alu .cmp a b = .flags 0b010) ∧
    (a.toNat < b.toNat → alu .cmp a b = .flags 0b100) ∧
    alu .unsupported a b = .fault { kind := .unsupportedAluOperation, info := 0 } ∧
    ∀ (ra rb : Reg) (s : State), s.reg ra = a → s.reg rb = b →
      aluStep .unsupported ra rb s = .next (raise { kind := .unsupportedAluOperation, info := 0 } s) ∧
      (∀ y, alu .add a b = .value y → ∃ t, exec (.add (regByte ra) (regByte rb)) s = .next t ∧ t.reg ra = y) ∧
      (∀ y, alu .mul a b = .value y → ∃ t, exec (.mul (regByte ra) (regByte rb)) s = .next t ∧ t.reg ra = y) ∧
      (∀ f, alu .cmp a b = .flags f → ∃ t, exec (.cmp (regByte ra) (regByte rb)) s = .next t ∧ t.fl = f)

/-- MUL: the first register gets the product modulo 256; PC + 3; nothing else changes, no flag (`42_alu.md` section
MUL). -/
def Obligations.MultiplyWritesTheProductModulo256 : Prop :=
  ∀ (a b : Reg) (s : State), ∃ t, exec (.mul (regByte a) (regByte b)) s = .next t ∧
    (t.reg a).toNat = ((s.reg a).toNat * (s.reg b).toNat) % 256 ∧ t.pc = s.pc + 3 ∧
    RegsSameBut [a] s t ∧ MemSame s t ∧ ControlSame s t

/-- ADD: the first register gets the sum modulo 256; PC + 3; nothing else changes, no flag (`42_alu.md` section
ADD). -/
def Obligations.AddWritesTheSumModulo256 : Prop :=
  ∀ (a b : Reg) (s : State), ∃ t, exec (.add (regByte a) (regByte b)) s = .next t ∧
    (t.reg a).toNat = ((s.reg a).toNat + (s.reg b).toNat) % 256 ∧ t.pc = s.pc + 3 ∧
    RegsSameBut [a] s t ∧ MemSame s t ∧ ControlSame s t

/-- CMP: Equal, Greater or Less, unsigned, exactly that bit; PC + 3; no register and no memory changes (`42_alu.md`
section CMP). -/
def Obligations.CompareSetsExactlyOneFlag : Prop :=
  ∀ (a b : Reg) (s : State), ∃ t, exec (.cmp (regByte a) (regByte b)) s = .next t ∧
    ((s.reg a).toNat = (s.reg b).toNat → t.fl = 0b001) ∧
    ((s.reg a).toNat > (s.reg b).toNat → t.fl = 0b010) ∧
    ((s.reg a).toNat < (s.reg b).toNat → t.fl = 0b100) ∧
    t.pc = s.pc + 3 ∧ RegsSameBut [] s t ∧ MemSame s t ∧
    t.run = s.run ∧ t.err = s.err ∧ t.out = s.out

/-- `42_alu.md` R91: only CMP writes FL, ADD and MUL leave it as it was, and CMP writes all three bits, leaving exactly
one set whatever FL was. -/
def Obligations.OnlyCompareWritesFlags : Prop :=
  (∀ (i : Instr) (s t : State), exec i s = .next t → t.fl ≠ s.fl → ∃ a b, i = .cmp a b) ∧
  (∀ (c : Config) (s t : State), stepWith c s = .next t → t.fl ≠ s.fl → ∃ a b, fetch c s = .ok (.cmp a b)) ∧
  (∀ (a b : Byte) (s t : State), exec (.add a b) s = .next t ∨ exec (.mul a b) s = .next t → t.fl = s.fl) ∧
  (∀ (a b : Reg) (f : FlagBits) (s : State), ∃ t u, exec (.cmp (regByte a) (regByte b)) s = .next t ∧
    exec (.cmp (regByte a) (regByte b)) (s.setFl f) = .next u ∧ u.fl = t.fl ∧
    (t.fl = 0b001 ∨ t.fl = 0b010 ∨ t.fl = 0b100))

/-- No step's course depends on the Greater and Less bits: from a state that differs in them alone the step does the
same, and FL ends as CMP wrote it or as it stood (`42_alu.md` section CMP: "G and L differ for no instruction"). -/
def Obligations.GreaterAndLessSteerNothing : Prop :=
  ∀ (c : Config) (s t : State) (f : FlagBits), f.getLsbD 0 = s.fl.getLsbD 0 → stepWith c s = .next t →
    ∃ u, stepWith c (s.setFl f) = .next u ∧ u = t.setFl u.fl ∧ (u.fl = t.fl ∨ (t.fl = s.fl ∧ u.fl = f))

/-! ### PUSH, POP -/

/-- PUSH: SP goes down by one modulo 256, the byte at the new SP becomes the register's value read after the decrement;
PC + 2; nothing else changes (`43_stack.md` section PUSH; the wrap is decision D8, log 10, register 7 D19, log 21). -/
def Obligations.PushStoresBelowTheStackPointer : Prop :=
  ∀ (a : Reg) (s : State), ∃ t, exec (.push (regByte a)) s = .next t ∧
    t.sp.toNat = (s.sp.toNat + 255) % 256 ∧ (pushAddress s).toNat = t.sp.toNat ∧
    t.mem.read (pushAddress s).toNat = (if a = spReg then t.sp else s.reg a) ∧
    MemSameBut (pushAddress s) s t ∧ RegsSameBut [spReg] s t ∧ t.pc = s.pc + 2 ∧ ControlSame s t

/-- POP: the register gets the byte at SP, then SP goes up by one modulo 256 (for register 7 it is the popped value that
goes up); PC + 2; nothing else changes, memory included (`43_stack.md` section POP; the wrap is decision D8, log 10,
register 7 decision D19, log 21). -/
def Obligations.PopLoadsFromTheStackPointer : Prop :=
  ∀ (a : Reg) (s : State), ∃ t, exec (.pop (regByte a)) s = .next t ∧
    (a ≠ spReg → t.reg a = s.mem.read s.sp.toNat ∧ t.sp.toNat = (s.sp.toNat + 1) % 256) ∧
    (a = spReg → t.sp.toNat = ((s.mem.read s.sp.toNat).toNat + 1) % 256) ∧
    RegsSameBut [a, spReg] s t ∧ MemSame s t ∧ t.pc = s.pc + 2 ∧ ControlSame s t

/-- Register 7 as the operand of PUSH, POP and CALL: the new pointer is stored, the popped value is incremented, control
goes to the cell just written (`43_stack.md` section 2, register 7; decisions D19, log 21, and D8, log 10; that CALL
stores its return address modulo 256, so that a CALL at PC 254 completes, is D10, log 12). -/
def Obligations.StackPointerAsStackOperand : Prop :=
  ∀ s : State,
    (∃ t, exec (.push (regByte spReg)) s = .next t ∧
      t.sp.toNat = (s.sp.toNat + 255) % 256 ∧ (t.mem.read t.sp.toNat).toNat = (s.sp.toNat + 255) % 256) ∧
    (∃ t, exec (.pop (regByte spReg)) s = .next t ∧
      t.sp.toNat = ((s.mem.read s.sp.toNat).toNat + 1) % 256) ∧
    (∃ t, exec (.call (regByte spReg)) s = .next t ∧
      t.pc.toNat = (s.sp.toNat + 255) % 256 ∧ t.sp.toNat = t.pc.toNat ∧
      (t.mem.read t.sp.toNat).toNat = (s.pc + 2).toNat % 256)

/-- PUSH then POP of the same register other than 7 restores it, SP and every other register, across the wrap too
(`43_stack.md` section POP, the document's property; an inference the spec marks as its own; the wrap is decision D8,
log 10). -/
def Obligations.PopRestoresWhatPushStored : Prop :=
  ∀ (a : Reg) (s : State), a ≠ spReg → ∃ t,
    execAll [.push (regByte a), .pop (regByte a)] s = .next t ∧
      RegsSameBut [] s t ∧ MemSameBut (pushAddress s) s t ∧ ControlSame s t ∧ t.pc = s.pc + 4

/-- The stack is last in, first out: pushing any list of up to 256 registers other than 7 and popping them back in
reverse restores every register, SP included, wherever SP stood (`43_stack.md` section 1; decision D8, log 10). -/
def Obligations.PopsInReverseUndoPushes : Prop :=
  ∀ (rs : List Reg) (s : State), rs.length ≤ 256 → (∀ r ∈ rs, r ≠ spReg) → ∃ t,
    execAll (rs.map (fun r => .push (regByte r)) ++ rs.reverse.map (fun r => .pop (regByte r))) s = .next t ∧
      RegsSameBut [] s t ∧ ControlSame s t

/-! ### CALL, RET, JMP, JEQ, JNE -/

/-- CALL: SP goes down by one modulo 256, the byte at the new SP becomes PC + 2 modulo 256, PC becomes the register's
value read after the push; nothing else changes (`44_control.md` section CALL; the cut to a byte is decision D10,
log 12, the wrap decision D8, log 10, register 7 decision D19, log 21). -/
def Obligations.CallPushesTheReturnAddress : Prop :=
  ∀ (a : Reg) (s : State), ∃ t, exec (.call (regByte a)) s = .next t ∧
    t.sp.toNat = (s.sp.toNat + 255) % 256 ∧ (pushAddress s).toNat = t.sp.toNat ∧
    (t.mem.read (pushAddress s).toNat).toNat = (s.pc + 2).toNat % 256 ∧
    t.pc.toNat = (if a = spReg then t.sp.toNat else (s.reg a).toNat) ∧
    MemSameBut (pushAddress s) s t ∧ RegsSameBut [spReg] s t ∧ ControlSame s t

/-- RET: PC becomes the byte at SP and SP goes up by one modulo 256; nothing else changes (`44_control.md` section RET;
the wrap is decision D8, log 10). -/
def Obligations.ReturnPopsIntoThePc : Prop :=
  ∀ s : State, ∃ t, exec .ret s = .next t ∧
    t.pc.toNat = (s.mem.read s.sp.toNat).toNat ∧ t.sp.toNat = (s.sp.toNat + 1) % 256 ∧
    RegsSameBut [spReg] s t ∧ MemSame s t ∧ ControlSame s t

/-- JMP: PC becomes the register's value; nothing else changes (`44_control.md` section JMP). -/
def Obligations.JumpGoesToTheRegister : Prop :=
  ∀ (a : Reg) (s : State), ∃ t, exec (.jmp (regByte a)) s = .next t ∧
    t.pc.toNat = (s.reg a).toNat ∧ RegsSameBut [] s t ∧ MemSame s t ∧ ControlSame s t

/-- JEQ: taken exactly when bit 0 of FL is set, else PC + 2; nothing else changes (`44_control.md` section JEQ). -/
def Obligations.JumpIfEqualFollowsTheEqualFlag : Prop :=
  ∀ (a : Reg) (s : State), ∃ t, exec (.jeq (regByte a)) s = .next t ∧
    (s.fl.getLsbD 0 = true → t.pc.toNat = (s.reg a).toNat) ∧ (s.fl.getLsbD 0 = false → t.pc = s.pc + 2) ∧
    RegsSameBut [] s t ∧ MemSame s t ∧ ControlSame s t

/-- JNE: taken exactly when bit 0 of FL is clear, FL all clear included, else PC + 2; nothing else changes
(`44_control.md` section JNE). -/
def Obligations.JumpIfNotEqualFollowsTheEqualFlag : Prop :=
  ∀ (a : Reg) (s : State), ∃ t, exec (.jne (regByte a)) s = .next t ∧
    (s.fl.getLsbD 0 = false → t.pc.toNat = (s.reg a).toNat) ∧ (s.fl.getLsbD 0 = true → t.pc = s.pc + 2) ∧
    RegsSameBut [] s t ∧ MemSame s t ∧ ControlSame s t

/-- A RET whose SP is the CALL's, with the return-address cell as the CALL left it, resumes at PC + 2 of the CALL and
gives SP back, whatever happened in between, for a CALL at PC up to 253 (`44_control.md` section RET, the document's
property; an inference the spec marks as its own; the wrap is decision D8, log 10). -/
def Obligations.ReturnResumesAfterTheCall : Prop :=
  ∀ (a : Reg) (s t u : State), s.pc.toNat ≤ 253 → exec (.call (regByte a)) s = .next t →
    u.sp = t.sp → u.mem.read u.sp.toNat = t.mem.read t.sp.toNat →
    ∃ v, exec .ret u = .next v ∧ v.pc = s.pc + 2 ∧ v.sp = s.sp

/-- How PC changes over a well-formed instruction: HLT leaves it; RET sets it to the byte at SP, JMP and CALL to the
register's value (for CALL as the push leaves it), a branch to the register's value or to PC + 2; every other
instruction adds its length. No transfer changes FL (`44_control.md` section 1, `10_state.md` section 3; HLT is
decision D12, log 14; that CALL reads register 7 after the push is D19, log 21). -/
def Obligations.OnlyTransfersSetThePcDirectly : Prop :=
  ∀ (i : Instr) (s t : State), i.wf = true → exec i s = .next t →
    (i = .hlt → t.pc = s.pc) ∧
    (i = .ret → t.pc = zext9 (s.mem.read s.sp.toNat) ∧ t.fl = s.fl) ∧
    (∀ a, i = .jmp a ∨ i = .call a → (∃ r, a = regByte r ∧ t.pc = zext9 (t.reg r)) ∧ t.fl = s.fl) ∧
    (∀ a, i = .jeq a ∨ i = .jne a →
      (t.pc = s.pc + 2 ∨ ∃ r, a = regByte r ∧ t.pc = zext9 (t.reg r)) ∧ t.fl = s.fl) ∧
    (i.mnemonic ∉ [.hlt, .call, .ret, .jmp, .jeq, .jne] →
      t.pc = s.pc + BitVec.ofNat 9 i.mnemonic.length)

/-! ### Operands and completion -/

/-- A register operand byte above 7, the first such in the instruction, raises InvalidRegister with it and changes
nothing else, whatever the flags say (`30_encoding.md` section 3, `40_execution_cycle.md` section 2; decision D9,
log 11). -/
def Obligations.BadRegisterOperandRaisesInvalidRegister : Prop :=
  ∀ (i : Instr) (b : Byte) (s : State),
    i.regOperands.find? (fun x => decide (7 < x.toNat)) = some b →
    exec i s = .next (raise { kind := .invalidRegister, info := zext9 b } s)

/-- Every well-formed instruction completes in every state: no fault can arise once it executes, ERR is untouched, and
RUN changes only for HLT (`40_execution_cycle.md` section 2; an inference the spec marks as its own). -/
def Obligations.WellFormedInstructionsComplete : Prop :=
  ∀ (i : Instr) (s : State), i.wf = true → ∃ t, exec i s = .next t ∧
    t.run = (if i = .hlt then .halted else s.run) ∧ t.err = s.err

/-- The table of `10_state.md` section 2: a well-formed instruction changes no register outside its "writes" column, and
depends on no register outside its "reads" column: with another value there, everything else comes out the same. Every
register, register 7 included, can be named, and every register of the "writes" column gets the instruction's result:
LDI, ADD, MUL and POP write the register they name, register 7 too, and PUSH, POP, CALL and RET move SP (the wrap of SP
is decision D8, log 10, POP of register 7 D19, log 21). -/
def Obligations.RegistersReadAndWrittenAsTabled : Prop :=
  (∀ (i : Instr) (s t : State), i.wf = true → exec i s = .next t → RegsSameBut (regsWritten i) s t) ∧
  (∀ (i : Instr) (s t : State) (r : Reg) (v : Byte), i.wf = true → r ∉ regsRead i s → exec i s = .next t →
    ∃ u, exec i (s.setReg r v) = .next u ∧ u = t.setReg r (u.reg r) ∧
      (r ∉ regsWritten i → u.reg r = v) ∧ (r ∈ regsWritten i → u.reg r = t.reg r)) ∧
  (∀ (b : Byte), b.toNat ≤ 7 ↔ ∃ r : Reg, b = regByte r) ∧
  (∀ (a b : Reg) (imm : Byte) (s : State),
    (∃ t, exec (.ldi (regByte a) imm) s = .next t ∧ t.reg a = imm) ∧
    (∃ t, exec (.add (regByte a) (regByte b)) s = .next t ∧
      (t.reg a).toNat = ((s.reg a).toNat + (s.reg b).toNat) % 256) ∧
    (∃ t, exec (.mul (regByte a) (regByte b)) s = .next t ∧
      (t.reg a).toNat = ((s.reg a).toNat * (s.reg b).toNat) % 256) ∧
    (∃ t, exec (.pop (regByte a)) s = .next t ∧
      t.reg a = (if a = spReg then s.mem.read s.sp.toNat + 1 else s.mem.read s.sp.toNat) ∧
      (a ≠ spReg → t.sp = s.sp + 1)) ∧
    (∃ t, exec (.push (regByte a)) s = .next t ∧ t.sp = s.sp - 1) ∧
    (∃ t, exec (.call (regByte a)) s = .next t ∧ t.sp = s.sp - 1) ∧
    (∃ t, exec .ret s = .next t ∧ t.sp = s.sp + 1))

/-- No step reads OUT or ERR: from a state that differs in them alone it does the same to everything else, and adds the
same to OUT (`10_state.md` section 6, R19 and R17, "The core never reads it", "read by no instruction"). -/
def Obligations.OutputAndErrorRecordSteerNothing : Prop :=
  ∀ (c : Config) (s t : State) (o : List Byte) (e : ErrorRecord), stepWith c s = .next t →
    ∃ (u : State) (added : List Byte), stepWith c ((s.setOut o).setErr e) = .next u ∧
      t.out = s.out ++ added ∧ u.out = o ++ added ∧
      u = (t.setOut u.out).setErr u.err ∧ (u.err = t.err ∨ (u.err = e ∧ t.err = s.err))

/-! ### The whole machine -/

/-- Every step, under any parameters, keeps the invariant: memory in canonical form, PC at most 256 with no wrap, FL a
legal value (`10_state.md` sections 3 and 4; PC's width is decision D2, log 4). -/
def Obligations.EveryStepKeepsTheInvariant : Prop :=
  (∀ s t : State, s.Inv → step s = .next t → t.Inv) ∧
  (∀ (c : Config) (s t : State), s.Inv → stepWith c s = .next t → t.Inv)

/-- The state after reset meets the invariant that every step keeps (`10_state.md` section 8; its values of PC, FL and
memory are D6, D5 and D7, logs 8, 7 and 9). -/
def Obligations.ResetMeetsTheInvariant : Prop := State.reset.Inv

/-- Every state the host can start the core from, with any image and any MEM_INIT, meets the invariant
(`70_reset_and_hazards.md` sections 1 and 2; PC and FL are D6 and D5, logs 8 and 7). -/
def Obligations.BootStatesMeetTheInvariant : Prop :=
  ∀ (memInit : Nat → Byte) (image : List Byte) (s : State), boot memInit image = some s → s.Inv

/-- From a state that meets the invariant, a step that ends the run leaves a final state that tells why: a HLT byte at
PC, or a record whose pc is PC and whose info is 256, the unknown byte at PC, or the first register operand byte above 7
of the instruction at PC; the ALU's fault is reached by no program (`60_exceptions.md` section 1, `42_alu.md` section 1;
that PC stays at the HLT is decision D12, log 14, PC's width D2, log 4, InvalidRegister D9, log 11, which fault is
raised where several apply D13, log 15, the record D14, log 16). -/
def Obligations.FinalStatesTellWhyTheRunEnded : Prop :=
  ∀ (c : Config) (s t : State), s.Inv → stepWith c s = .next t → FinalStateTold c.opcodes t

/-- Reset, from any state: the values of the table of `10_state.md` section 8. SP and RUN are the source's; x[0..6]
(D4, log 6), FL (D5, log 7), PC (D6, log 8) and memory (D7, log 9) are the spec's own choices. ERR has no value. -/
def Obligations.ResetLeavesTheTabledValues : Prop :=
  State.reset.reg 7 = 0xF4 ∧ State.reset.run = .running ∧ State.reset.status = none ∧
  (∀ r : Reg, r ≠ 7 → State.reset.reg r = 0) ∧ State.reset.pc = 0 ∧ State.reset.fl = 0 ∧
  (∀ a : Nat, State.reset.mem.read a = 0) ∧ State.reset.out = []

/-- Before the first step memory holds the image from address 0 in order and MEM_INIT beyond it, everything else its
reset value; an image of more than 256 bytes starts no core; a reset keeps nothing of the run before it
(`70_reset_and_hazards.md` sections 1 and 2; MEM_INIT is D7, log 9, the length D17, log 19). -/
def Obligations.LoadedImageStandsFromAddressZero : Prop :=
  ∀ (memInit : Nat → Byte) (image : List Byte) (before : State),
    (256 < image.length → hostReset before memInit image = none) ∧
    (image.length ≤ 256 → ∃ s, hostReset before memInit image = some s ∧
      (∀ (k : Nat) (b : Byte), image[k]? = some b → s.mem.read k = b) ∧
      (∀ k : Nat, image.length ≤ k → k < 256 → s.mem.read k = memInit k) ∧
      s = State.reset.setMem s.mem)

/-- With nothing loaded and memory all 0x00, the first step raises UnknownOpcode(0x00) at address 0
(`70_reset_and_hazards.md` section 1, an inference the spec marks as its own; D6, D7, logs 8 and 9). -/
def Obligations.EmptyImageStopsAtTheFirstStep : Prop :=
  ∃ t, step State.reset = .next t ∧ t.status = some { kind := .unknownOpcode, info := 0, pc := 0 } ∧
    t = { State.reset with run := .error, err := t.err }

/-- The trace tap shows PC, the three bytes at it and the registers; where an address is above 255 it shows whatever
`beyond` says, which nothing constrains (`60_exceptions.md` section 4, log 23). -/
def Obligations.TraceShowsPcBytesAndRegisters : Prop :=
  ∀ (beyond : Nat → Byte) (s : State),
    (traceTap beyond s).pc = s.pc ∧ (traceTap beyond s).regs = s.regs ∧
    (traceTap beyond s).byte0 = (if s.pc.toNat ≤ 255 then s.mem.read s.pc.toNat else beyond s.pc.toNat) ∧
    (traceTap beyond s).byte1 =
      (if s.pc.toNat ≤ 254 then s.mem.read (s.pc.toNat + 1) else beyond (s.pc.toNat + 1)) ∧
    (traceTap beyond s).byte2 =
      (if s.pc.toNat ≤ 253 then s.mem.read (s.pc.toNat + 2) else beyond (s.pc.toNat + 2))
end

