-- ==== Sys2Proof/Laws/State.lean ====
section
/-! SUPPORT. What each update of the state does to each field, one lemma per field and update, and the same for the
register operations. -/

namespace Sys2Proof.Machine

/-! ### setRegs -/

@[simp] theorem setRegs_regs (s : State) (v : Vector Byte 8) : (s.setRegs v).regs = v := rfl
@[simp] theorem setRegs_pc (s : State) (v : Vector Byte 8) : (s.setRegs v).pc = s.pc := rfl
@[simp] theorem setRegs_fl (s : State) (v : Vector Byte 8) : (s.setRegs v).fl = s.fl := rfl
@[simp] theorem setRegs_run (s : State) (v : Vector Byte 8) : (s.setRegs v).run = s.run := rfl
@[simp] theorem setRegs_err (s : State) (v : Vector Byte 8) : (s.setRegs v).err = s.err := rfl
@[simp] theorem setRegs_mem (s : State) (v : Vector Byte 8) : (s.setRegs v).mem = s.mem := rfl
@[simp] theorem setRegs_out (s : State) (v : Vector Byte 8) : (s.setRegs v).out = s.out := rfl

/-! ### setPc -/

@[simp] theorem setPc_regs (s : State) (v : Addr) : (s.setPc v).regs = s.regs := rfl
@[simp] theorem setPc_pc (s : State) (v : Addr) : (s.setPc v).pc = v := rfl
@[simp] theorem setPc_fl (s : State) (v : Addr) : (s.setPc v).fl = s.fl := rfl
@[simp] theorem setPc_run (s : State) (v : Addr) : (s.setPc v).run = s.run := rfl
@[simp] theorem setPc_err (s : State) (v : Addr) : (s.setPc v).err = s.err := rfl
@[simp] theorem setPc_mem (s : State) (v : Addr) : (s.setPc v).mem = s.mem := rfl
@[simp] theorem setPc_out (s : State) (v : Addr) : (s.setPc v).out = s.out := rfl

/-! ### setFl -/

@[simp] theorem setFl_regs (s : State) (v : FlagBits) : (s.setFl v).regs = s.regs := rfl
@[simp] theorem setFl_pc (s : State) (v : FlagBits) : (s.setFl v).pc = s.pc := rfl
@[simp] theorem setFl_fl (s : State) (v : FlagBits) : (s.setFl v).fl = v := rfl
@[simp] theorem setFl_run (s : State) (v : FlagBits) : (s.setFl v).run = s.run := rfl
@[simp] theorem setFl_err (s : State) (v : FlagBits) : (s.setFl v).err = s.err := rfl
@[simp] theorem setFl_mem (s : State) (v : FlagBits) : (s.setFl v).mem = s.mem := rfl
@[simp] theorem setFl_out (s : State) (v : FlagBits) : (s.setFl v).out = s.out := rfl

/-! ### setRun -/

@[simp] theorem setRun_regs (s : State) (v : RunState) : (s.setRun v).regs = s.regs := rfl
@[simp] theorem setRun_pc (s : State) (v : RunState) : (s.setRun v).pc = s.pc := rfl
@[simp] theorem setRun_fl (s : State) (v : RunState) : (s.setRun v).fl = s.fl := rfl
@[simp] theorem setRun_run (s : State) (v : RunState) : (s.setRun v).run = v := rfl
@[simp] theorem setRun_err (s : State) (v : RunState) : (s.setRun v).err = s.err := rfl
@[simp] theorem setRun_mem (s : State) (v : RunState) : (s.setRun v).mem = s.mem := rfl
@[simp] theorem setRun_out (s : State) (v : RunState) : (s.setRun v).out = s.out := rfl

/-! ### setErr -/

@[simp] theorem setErr_regs (s : State) (v : ErrorRecord) : (s.setErr v).regs = s.regs := rfl
@[simp] theorem setErr_pc (s : State) (v : ErrorRecord) : (s.setErr v).pc = s.pc := rfl
@[simp] theorem setErr_fl (s : State) (v : ErrorRecord) : (s.setErr v).fl = s.fl := rfl
@[simp] theorem setErr_run (s : State) (v : ErrorRecord) : (s.setErr v).run = s.run := rfl
@[simp] theorem setErr_err (s : State) (v : ErrorRecord) : (s.setErr v).err = v := rfl
@[simp] theorem setErr_mem (s : State) (v : ErrorRecord) : (s.setErr v).mem = s.mem := rfl
@[simp] theorem setErr_out (s : State) (v : ErrorRecord) : (s.setErr v).out = s.out := rfl

/-! ### setMem -/

@[simp] theorem setMem_regs (s : State) (v : Memory) : (s.setMem v).regs = s.regs := rfl
@[simp] theorem setMem_pc (s : State) (v : Memory) : (s.setMem v).pc = s.pc := rfl
@[simp] theorem setMem_fl (s : State) (v : Memory) : (s.setMem v).fl = s.fl := rfl
@[simp] theorem setMem_run (s : State) (v : Memory) : (s.setMem v).run = s.run := rfl
@[simp] theorem setMem_err (s : State) (v : Memory) : (s.setMem v).err = s.err := rfl
@[simp] theorem setMem_mem (s : State) (v : Memory) : (s.setMem v).mem = v := rfl
@[simp] theorem setMem_out (s : State) (v : Memory) : (s.setMem v).out = s.out := rfl

/-! ### setOut -/

@[simp] theorem setOut_regs (s : State) (v : List Byte) : (s.setOut v).regs = s.regs := rfl
@[simp] theorem setOut_pc (s : State) (v : List Byte) : (s.setOut v).pc = s.pc := rfl
@[simp] theorem setOut_fl (s : State) (v : List Byte) : (s.setOut v).fl = s.fl := rfl
@[simp] theorem setOut_run (s : State) (v : List Byte) : (s.setOut v).run = s.run := rfl
@[simp] theorem setOut_err (s : State) (v : List Byte) : (s.setOut v).err = s.err := rfl
@[simp] theorem setOut_mem (s : State) (v : List Byte) : (s.setOut v).mem = s.mem := rfl
@[simp] theorem setOut_out (s : State) (v : List Byte) : (s.setOut v).out = v := rfl

/-! ### setReg -/

@[simp] theorem setReg_pc (s : State) (r : Reg) (v : Byte) : (s.setReg r v).pc = s.pc := rfl
@[simp] theorem setReg_fl (s : State) (r : Reg) (v : Byte) : (s.setReg r v).fl = s.fl := rfl
@[simp] theorem setReg_run (s : State) (r : Reg) (v : Byte) : (s.setReg r v).run = s.run := rfl
@[simp] theorem setReg_err (s : State) (r : Reg) (v : Byte) : (s.setReg r v).err = s.err := rfl
@[simp] theorem setReg_mem (s : State) (r : Reg) (v : Byte) : (s.setReg r v).mem = s.mem := rfl
@[simp] theorem setReg_out (s : State) (r : Reg) (v : Byte) : (s.setReg r v).out = s.out := rfl

/-! ### advance -/

@[simp] theorem advance_regs (s : State) (n : Nat) : (s.advance n).regs = s.regs := rfl
@[simp] theorem advance_fl (s : State) (n : Nat) : (s.advance n).fl = s.fl := rfl
@[simp] theorem advance_run (s : State) (n : Nat) : (s.advance n).run = s.run := rfl
@[simp] theorem advance_err (s : State) (n : Nat) : (s.advance n).err = s.err := rfl
@[simp] theorem advance_mem (s : State) (n : Nat) : (s.advance n).mem = s.mem := rfl
@[simp] theorem advance_out (s : State) (n : Nat) : (s.advance n).out = s.out := rfl

/-! ### jumpTo -/

@[simp] theorem jumpTo_regs (s : State) (v : Byte) : (s.jumpTo v).regs = s.regs := rfl
@[simp] theorem jumpTo_fl (s : State) (v : Byte) : (s.jumpTo v).fl = s.fl := rfl
@[simp] theorem jumpTo_run (s : State) (v : Byte) : (s.jumpTo v).run = s.run := rfl
@[simp] theorem jumpTo_err (s : State) (v : Byte) : (s.jumpTo v).err = s.err := rfl
@[simp] theorem jumpTo_mem (s : State) (v : Byte) : (s.jumpTo v).mem = s.mem := rfl
@[simp] theorem jumpTo_out (s : State) (v : Byte) : (s.jumpTo v).out = s.out := rfl

/-! ### emit -/

@[simp] theorem emit_regs (s : State) (v : Byte) : (s.emit v).regs = s.regs := rfl
@[simp] theorem emit_pc (s : State) (v : Byte) : (s.emit v).pc = s.pc := rfl
@[simp] theorem emit_fl (s : State) (v : Byte) : (s.emit v).fl = s.fl := rfl
@[simp] theorem emit_run (s : State) (v : Byte) : (s.emit v).run = s.run := rfl
@[simp] theorem emit_err (s : State) (v : Byte) : (s.emit v).err = s.err := rfl
@[simp] theorem emit_mem (s : State) (v : Byte) : (s.emit v).mem = s.mem := rfl

@[simp] theorem advance_pc (s : State) (n : Nat) : (s.advance n).pc = s.pc + BitVec.ofNat 9 n := rfl
@[simp] theorem jumpTo_pc (s : State) (v : Byte) : (s.jumpTo v).pc = zext9 v := rfl
@[simp] theorem emit_out (s : State) (v : Byte) : (s.emit v).out = s.out ++ [v] := rfl

/-! ### spDec -/

@[simp] theorem spDec_pc (s : State) : (spDec s).pc = s.pc := rfl
@[simp] theorem spDec_fl (s : State) : (spDec s).fl = s.fl := rfl
@[simp] theorem spDec_run (s : State) : (spDec s).run = s.run := rfl
@[simp] theorem spDec_err (s : State) : (spDec s).err = s.err := rfl
@[simp] theorem spDec_mem (s : State) : (spDec s).mem = s.mem := rfl
@[simp] theorem spDec_out (s : State) : (spDec s).out = s.out := rfl

/-! ### spInc -/

@[simp] theorem spInc_pc (s : State) : (spInc s).pc = s.pc := rfl
@[simp] theorem spInc_fl (s : State) : (spInc s).fl = s.fl := rfl
@[simp] theorem spInc_run (s : State) : (spInc s).run = s.run := rfl
@[simp] theorem spInc_err (s : State) : (spInc s).err = s.err := rfl
@[simp] theorem spInc_mem (s : State) : (spInc s).mem = s.mem := rfl
@[simp] theorem spInc_out (s : State) : (spInc s).out = s.out := rfl

/-! ### raise -/

@[simp] theorem raise_regs (e : Raised) (s : State) : (raise e s).regs = s.regs := rfl
@[simp] theorem raise_pc (e : Raised) (s : State) : (raise e s).pc = s.pc := rfl
@[simp] theorem raise_fl (e : Raised) (s : State) : (raise e s).fl = s.fl := rfl
@[simp] theorem raise_run (e : Raised) (s : State) : (raise e s).run = .error := rfl
@[simp] theorem raise_err (e : Raised) (s : State) : (raise e s).err = { kind := e.kind, info := e.info, pc := s.pc } := rfl
@[simp] theorem raise_mem (e : Raised) (s : State) : (raise e s).mem = s.mem := rfl
@[simp] theorem raise_out (e : Raised) (s : State) : (raise e s).out = s.out := rfl

/-! ### Reading a register -/

@[simp] theorem reg_setPc (s : State) (v : Addr) (r : Reg) : (s.setPc v).reg r = s.reg r := rfl
@[simp] theorem reg_setFl (s : State) (v : FlagBits) (r : Reg) : (s.setFl v).reg r = s.reg r := rfl
@[simp] theorem reg_setRun (s : State) (v : RunState) (r : Reg) : (s.setRun v).reg r = s.reg r := rfl
@[simp] theorem reg_setErr (s : State) (v : ErrorRecord) (r : Reg) : (s.setErr v).reg r = s.reg r := rfl
@[simp] theorem reg_setMem (s : State) (v : Memory) (r : Reg) : (s.setMem v).reg r = s.reg r := rfl
@[simp] theorem reg_setOut (s : State) (v : List Byte) (r : Reg) : (s.setOut v).reg r = s.reg r := rfl
@[simp] theorem reg_advance (s : State) (n : Nat) (r : Reg) : (s.advance n).reg r = s.reg r := rfl
@[simp] theorem reg_jumpTo (s : State) (v : Byte) (r : Reg) : (s.jumpTo v).reg r = s.reg r := rfl
@[simp] theorem reg_emit (s : State) (v : Byte) (r : Reg) : (s.emit v).reg r = s.reg r := rfl
@[simp] theorem reg_raise (e : Raised) (s : State) (r : Reg) : (raise e s).reg r = s.reg r := rfl

/-- One write of the register file: entry `r` holds the value, every other entry its own. -/
theorem reg_setReg (s : State) (r q : Reg) (v : Byte) :
    (s.setReg r v).reg q = if q = r then v else s.reg q := by
  simp only [State.reg, State.setReg, State.setRegs, Fin.getElem_fin, Vector.getElem_set, Fin.ext_iff,
    eq_comm (a := r.val)]

@[simp] theorem reg_setReg_same (s : State) (r : Reg) (v : Byte) : (s.setReg r v).reg r = v := by
  simp [reg_setReg]

theorem reg_setReg_other (s : State) (r q : Reg) (v : Byte) (h : q ≠ r) : (s.setReg r v).reg q = s.reg q := by
  simp [reg_setReg, h]

theorem reg_spDec (s : State) (q : Reg) : (spDec s).reg q = if q = spReg then s.sp - 1 else s.reg q :=
  reg_setReg s spReg q _

theorem reg_spInc (s : State) (q : Reg) : (spInc s).reg q = if q = spReg then s.sp + 1 else s.reg q :=
  reg_setReg s spReg q _

@[simp] theorem sp_spDec (s : State) : (spDec s).sp = s.sp - 1 := reg_setReg_same s spReg _

@[simp] theorem sp_spInc (s : State) : (spInc s).sp = s.sp + 1 := reg_setReg_same s spReg _

/-- Two states with the same fields are one state: the register file is known by its eight readings. -/
theorem state_ext (s t : State) (hr : ∀ r, s.reg r = t.reg r) (hp : s.pc = t.pc) (hf : s.fl = t.fl)
    (hn : s.run = t.run) (he : s.err = t.err) (hm : s.mem = t.mem) (ho : s.out = t.out) : s = t := by
  cases s; cases t
  have hv : ∀ r : Reg, _ := hr
  simp only [State.reg] at hv
  simp only [State.mk.injEq]
  exact ⟨Vector.ext fun i hi => hv ⟨i, hi⟩, hp, hf, hn, he, hm, ho⟩

end Sys2Proof.Machine
end

