-- ==== Sys2Proof/Laws/Memory.lean ====
section
/-! SUPPORT. The memory: a read after a write, for any two addresses and any memory, and that every memory operation
keeps the canonical form. -/

namespace Sys2Proof.Machine

theorem cellAt_filter_other (a b : Nat) (h : b ≠ a) (cs : List Host.Cell) :
    cellAt b (cs.filter fun p => p.1 != a) = cellAt b cs := by
  induction cs with
  | nil => rfl
  | cons p rest ih =>
    by_cases hp : p.1 = a
    · have hb : ¬ p.1 = b := fun e => h (e.symm.trans hp)
      simp [hp, cellAt, ih, Ne.symm h]
    · by_cases hb : p.1 = b
      · simp [cellAt, hb, h]
      · simp [hp, cellAt, hb, ih]

theorem cellAt_filter_same (a : Nat) (cs : List Host.Cell) :
    cellAt a (cs.filter fun p => p.1 != a) = initByte := by
  induction cs with
  | nil => rfl
  | cons p rest ih =>
    by_cases hp : p.1 = a
    · simp [hp, ih]
    · simp [hp, cellAt, ih]

theorem cellAt_insertCell (a b : Nat) (v : Byte) (cs : List Host.Cell) (hs : ∀ p ∈ cs, p.1 ≠ a) :
    cellAt b (insertCell a v cs) = if b = a then v else cellAt b cs := by
  induction cs with
  | nil => simp [insertCell, cellAt, eq_comm]
  | cons p rest ih =>
    have hp : p.1 ≠ a := hs p (by simp)
    have hr := ih fun q hq => hs q (by simp [hq])
    by_cases hlt : a < p.1
    · simp [insertCell, hlt, cellAt, eq_comm]
    · by_cases hb : p.1 = b
      · have hba : b ≠ a := fun e => hp (hb.trans e)
        rw [insertCell, if_neg hlt]
        simp [cellAt, hb, hba]
      · simp [insertCell, hlt, cellAt, hb, hr]

/-- A read after a write, at any address of any memory. -/
theorem read_write (m : Memory) (a b : Nat) (v : Byte) :
    (m.write a v).read b = if b = a then v else m.read b := by
  have hs : ∀ p ∈ m.cells.filter (fun p => p.1 != a), p.1 ≠ a := by simp
  simp only [Memory.write, Memory.read]
  split
  · rename_i hv
    split
    · rename_i hb; subst hb; exact (cellAt_filter_same b m.cells).trans hv.symm
    · rename_i hb; exact cellAt_filter_other a b hb m.cells
  · rw [cellAt_insertCell a b v _ hs]
    split
    · rfl
    · rename_i hb; exact cellAt_filter_other a b hb m.cells

@[simp] theorem read_write_same (m : Memory) (a : Nat) (v : Byte) : (m.write a v).read a = v := by
  simp [read_write]

theorem read_write_other (m : Memory) (a b : Nat) (v : Byte) (h : b ≠ a) : (m.write a v).read b = m.read b := by
  simp [read_write, h]

theorem mem_insertCell (a : Nat) (v : Byte) (cs : List Host.Cell) (p : Host.Cell) :
    p ∈ insertCell a v cs ↔ p = (a, v) ∨ p ∈ cs := by
  induction cs with
  | nil => simp [insertCell]
  | cons q rest ih =>
    by_cases hlt : a < q.1
    · simp [insertCell, hlt]
    · simp [insertCell, hlt, ih, or_left_comm]

theorem insertCell_rising (a : Nat) (v : Byte) (cs : List Host.Cell) (hs : ∀ p ∈ cs, p.1 ≠ a)
    (hr : cs.Pairwise fun p q => p.1 < q.1) : (insertCell a v cs).Pairwise fun p q => p.1 < q.1 := by
  induction cs with
  | nil => simp [insertCell]
  | cons q rest ih =>
    have hq := List.pairwise_cons.1 hr
    have hne : q.1 ≠ a := hs q (by simp)
    by_cases hlt : a < q.1
    · simp only [insertCell, hlt, if_true]
      refine List.pairwise_cons.2 ⟨fun p hp => ?_, hr⟩
      rcases List.mem_cons.1 hp with rfl | hp
      · exact hlt
      · exact lt_trans hlt (hq.1 p hp)
    · simp only [insertCell, hlt, if_false]
      refine List.pairwise_cons.2 ⟨fun p hp => ?_, ih (fun p hp => hs p (by simp [hp])) hq.2⟩
      rcases (mem_insertCell a v rest p).1 hp with rfl | hp
      · exact lt_of_le_of_ne (not_lt.1 hlt) hne
      · exact hq.1 p hp

/-- A write at an address of the memory keeps the canonical form. -/
theorem write_wf (m : Memory) (a : Nat) (v : Byte) (ha : a < memSize) (h : m.wf) : (m.write a v).wf := by
  have hs : ∀ p ∈ m.cells.filter (fun p => p.1 != a), p.1 ≠ a := by simp
  have hr := h.1.filter fun p => p.1 != a
  have hin : ∀ p ∈ m.cells.filter (fun p => p.1 != a), p.1 < memSize ∧ p.2 ≠ initByte := fun p hp =>
    h.2 p (List.mem_of_mem_filter hp)
  simp only [Memory.write, Memory.wf]
  split
  · exact ⟨hr, hin⟩
  · rename_i hv
    refine ⟨insertCell_rising a v _ hs hr, fun p hp => ?_⟩
    rcases (mem_insertCell a v _ p).1 hp with rfl | hp
    · exact ⟨ha, hv⟩
    · exact hin p hp

/-- A memory given by a function is in canonical form. -/
theorem ofFn_wf (f : Nat → Byte) : (Memory.ofFn f).wf := by
  refine ⟨?_, fun p hp => ?_⟩
  · refine List.Pairwise.filter _ ?_
    rw [List.pairwise_map]
    exact List.pairwise_lt_range
  · simp only [Memory.ofFn, List.mem_filter, List.mem_map, List.mem_range] at hp
    obtain ⟨⟨a, ha, rfl⟩, hv⟩ := hp
    exact ⟨ha, by simpa using hv⟩

theorem cellAt_ofFn (f : Nat → Byte) (a : Nat) (as : List Nat) :
    cellAt a ((as.map fun b => (b, f b)).filter fun p => p.2 != initByte) = if a ∈ as then f a else initByte := by
  induction as with
  | nil => rfl
  | cons b rest ih =>
    by_cases hz : f b = initByte
    · by_cases hb : a = b
      · subst hb
        simp [hz, ih]
      · simp [hz, ih, hb]
    · by_cases hb : b = a
      · subst hb
        simp [hz, cellAt]
      · simp [hz, cellAt, hb, ih, Ne.symm hb]

/-- A memory given by a function holds its values, at every address of the memory. -/
theorem read_ofFn (f : Nat → Byte) (a : Nat) (ha : a < memSize) : (Memory.ofFn f).read a = f a := by
  simp [Memory.read, Memory.ofFn, cellAt_ofFn, ha]

/-- Placing an instruction keeps the canonical form. -/
theorem placeBytes_wf (a : Nat) (bs : List Byte) (m : Memory) (h : m.wf) : (placeBytes a bs m).wf := by
  induction bs generalizing a m with
  | nil => exact h
  | cons b rest ih =>
    refine ih (a + 1) _ ?_
    split
    · rename_i ha; exact write_wf m a b ha h
    · exact h

theorem reset_mem_wf : State.reset.mem.wf := by decide

end Sys2Proof.Machine
end

