-- ==== Sys2Proof/Laws/Ops.lean ====
section
/-! SUPPORT. One lemma for each shared operation that says everything it can do. Proofs about instructions cite these
and unfold none of the operations. -/

namespace Sys2Proof.Machine

theorem zext9_toNat (v : Byte) : (zext9 v).toNat = v.toNat := by
  simp [zext9, BitVec.toNat_setWidth]; omega

theorem zext9_lt (v : Byte) : (zext9 v).toNat < memSize := by
  rw [zext9_toNat]; exact v.isLt

@[simp] theorem setWidth_zext9 (v : Byte) : (zext9 v).setWidth 8 = v := by
  apply BitVec.eq_of_toNat_eq
  rw [BitVec.toNat_setWidth, zext9_toNat]
  exact Nat.mod_eq_of_lt v.isLt

/-! ### The two memory primitives -/

theorem memRead_in (addr : Addr) (s : State) (h : addr.toNat < memSize) :
    memRead addr s = .ok (s.mem.read addr.toNat) := if_pos h

theorem memRead_out (addr : Addr) (s : State) (h : ¬ addr.toNat < memSize) :
    memRead addr s = .error { kind := .outOfRangeAccess, info := addr } := if_neg h

theorem memWrite_in (addr v : Addr) (s : State) (h : addr.toNat < memSize) :
    memWrite addr v s = .ok (s.setMem (s.mem.write addr.toNat (v.setWidth 8))) := if_pos h

theorem memWrite_out (addr v : Addr) (s : State) (h : ¬ addr.toNat < memSize) :
    memWrite addr v s = .error { kind := .outOfRangeAccess, info := addr } := if_neg h

/-! ### The stack -/

theorem pushAddress_toNat (s : State) : (pushAddress s).toNat = (s.sp - 1).toNat := by
  rw [pushAddress, zext9_toNat, sp_spDec]

theorem popAddress_toNat (s : State) : (popAddress s).toNat = s.sp.toNat := zext9_toNat _

/-- The state a push leaves: SP decremented and the low byte of the value stored at it. -/
def pushed (value : State → Addr) (s : State) : State :=
  (spDec s).setMem (s.mem.write (pushAddress s).toNat ((value (spDec s)).setWidth 8))

/-- A push always completes: a stack address is never out of range. -/
theorem pushThen_eq (value : State → Addr) (s : State) (k : State → State) :
    pushThen value s k = .next (k (pushed value s)) := by
  unfold pushThen
  rw [memWrite_in (pushAddress s) _ _ (zext9_lt _)]
  rfl

/-- The read of a pop always completes. -/
theorem popThen_eq (s : State) (k : Byte → State) :
    popThen s k = .next (k (s.mem.read (popAddress s).toNat)) := by
  unfold popThen
  rw [memRead_in (popAddress s) _ (zext9_lt _)]

theorem pushed_mem_wf (value : State → Addr) (s : State) (h : s.mem.wf) : (pushed value s).mem.wf :=
  write_wf _ _ _ (zext9_lt _) h

@[simp] theorem pushed_pc (value : State → Addr) (s : State) : (pushed value s).pc = s.pc := rfl
@[simp] theorem pushed_fl (value : State → Addr) (s : State) : (pushed value s).fl = s.fl := rfl
@[simp] theorem pushed_run (value : State → Addr) (s : State) : (pushed value s).run = s.run := rfl
@[simp] theorem pushed_err (value : State → Addr) (s : State) : (pushed value s).err = s.err := rfl
@[simp] theorem pushed_out (value : State → Addr) (s : State) : (pushed value s).out = s.out := rfl
@[simp] theorem pushed_mem (value : State → Addr) (s : State) : (pushed value s).mem =
    s.mem.write (pushAddress s).toNat ((value (spDec s)).setWidth 8) := rfl
@[simp] theorem reg_pushed (value : State → Addr) (s : State) (r : Reg) :
    (pushed value s).reg r = (spDec s).reg r := rfl

/-! ### Register operands -/

theorem regOf_eq_some (b : Byte) (r : Reg) : regOf b = some r ↔ b = regByte r := by
  unfold regOf regByte
  constructor
  · intro h
    split at h
    · rename_i hb
      cases h
      simp
    · cases h
  · rintro rfl
    revert r
    decide

@[simp] theorem regOf_regByte (r : Reg) : regOf (regByte r) = some r := (regOf_eq_some _ _).2 rfl

theorem regOf_eq_none (b : Byte) : regOf b = none ↔ 8 ≤ b.toNat := by
  unfold regOf
  split
  · rename_i h; simp [h]
  · rename_i h; simpa using h

@[simp] theorem withReg_regByte (r : Reg) (s : State) (k : Reg → Result) : withReg (regByte r) s k = k r := by
  simp [withReg]

/-- A register operand either names a register or raises InvalidRegister, the state otherwise untouched. -/
theorem withReg_cases (a : Byte) (s : State) (k : Reg → Result) :
    (∃ r, a = regByte r ∧ withReg a s k = k r) ∨
    (8 ≤ a.toNat ∧ withReg a s k = .next (raise (invalidRegister a) s)) := by
  unfold withReg
  cases h : regOf a with
  | some r => exact .inl ⟨r, (regOf_eq_some a r).1 h, rfl⟩
  | none => exact .inr ⟨(regOf_eq_none a).1 h, rfl⟩

/-! ### The ALU -/

theorem alu_add (a b : Byte) : alu .add a b = .value (a + b) := by
  simp only [alu, AluOut.value.injEq]
  apply BitVec.eq_of_toNat_eq
  simp [BitVec.toNat_add]

theorem alu_mul (a b : Byte) : alu .mul a b = .value (a * b) := by
  simp only [alu, AluOut.value.injEq]
  apply BitVec.eq_of_toNat_eq
  simp [BitVec.toNat_mul]

theorem flagsOfCompare_cases (a b : Byte) :
    (a = b ∧ flagsOfCompare a b = flagE) ∨ (b.toNat < a.toNat ∧ flagsOfCompare a b = flagG) ∨
    (a.toNat < b.toNat ∧ flagsOfCompare a b = flagL) := by
  unfold flagsOfCompare
  by_cases h1 : a.toNat = b.toNat
  · exact .inl ⟨BitVec.eq_of_toNat_eq h1, if_pos h1⟩
  · by_cases h2 : b.toNat < a.toNat
    · exact .inr (.inl ⟨h2, by simp [h1, h2]⟩)
    · exact .inr (.inr ⟨by omega, by simp [h1, h2]⟩)

theorem aluStep_add (ra rb : Reg) (s : State) :
    aluStep .add ra rb s = .next ((s.setReg ra (s.reg ra + s.reg rb)).advance 3) := by
  simp [aluStep, alu_add]

theorem aluStep_mul (ra rb : Reg) (s : State) :
    aluStep .mul ra rb s = .next ((s.setReg ra (s.reg ra * s.reg rb)).advance 3) := by
  simp [aluStep, alu_mul]

theorem aluStep_cmp (ra rb : Reg) (s : State) :
    aluStep .cmp ra rb s = .next ((s.setFl (flagsOfCompare (s.reg ra) (s.reg rb))).advance 3) := rfl

/-! ### Fetch and step -/

/-- A lookup that answers a row answers one whose opcode is the byte. -/
theorem lookupOpcode_sound (m : OpcodeMap) (b : Byte) (k : Mnemonic) (h : lookupOpcode m b = some k) : m k = b := by
  have := List.find?_some h
  simpa using this

theorem decodeOpcode_cases (m : OpcodeMap) (ir : Byte) :
    (∃ k, lookupOpcode m ir = some k ∧ decodeOpcode m ir = .ok k) ∨
    (lookupOpcode m ir = none ∧
      decodeOpcode m ir = .error { kind := .unknownOpcode, info := zext9 ir }) := by
  unfold decodeOpcode
  cases h : lookupOpcode m ir with
  | some k => exact .inl ⟨k, rfl, rfl⟩
  | none => exact .inr ⟨rfl, rfl⟩

/-- A step that answers a next state ran with RUN Running, and either took the fault of its fetch or executed the
instruction it fetched. -/
theorem stepWith_cases (c : Config) (s t : State) (h : stepWith c s = .next t) :
    s.run = .running ∧
    ((∃ e, fetch c s = .error e ∧ t = raise e s) ∨ (∃ i, fetch c s = .ok i ∧ exec i s = .next t)) := by
  unfold stepWith at h
  split at h
  · cases h
  · cases h
  · rename_i hr
    refine ⟨hr, ?_⟩
    split at h
    · rename_i e he; cases h; exact .inl ⟨e, he, rfl⟩
    · rename_i i hi; exact .inr ⟨i, hi, h⟩

end Sys2Proof.Machine
end

