-- ==== Sys2Proof/Laws/PerInstr.lean ====
section
/-! SUPPORT. A statement for every instruction, one lemma per constructor: the encoded length is the opcode's length,
1 to 3 bytes (`30_encoding.md` R45, R54). -/

namespace Sys2Proof.Laws.EncodedLength

/-- The bytes of an instruction under any opcode map number one more than its opcode's arity, and are 1 to 3. -/
def Statement (i : Instr) : Prop :=
  ∀ m : OpcodeMap, (encodeWith m i).length = i.mnemonic.length ∧
    1 ≤ (encodeWith m i).length ∧ (encodeWith m i).length ≤ 3

theorem hlt : Statement .hlt := fun _ => ⟨rfl, by simp [encodeWith, Instr.operandBytes]⟩
theorem ldi (a imm : Byte) : Statement (.ldi a imm) := fun _ => ⟨rfl, by simp [encodeWith, Instr.operandBytes]⟩
theorem prn (a : Byte) : Statement (.prn a) := fun _ => ⟨rfl, by simp [encodeWith, Instr.operandBytes]⟩
theorem mul (a b : Byte) : Statement (.mul a b) := fun _ => ⟨rfl, by simp [encodeWith, Instr.operandBytes]⟩
theorem add (a b : Byte) : Statement (.add a b) := fun _ => ⟨rfl, by simp [encodeWith, Instr.operandBytes]⟩
theorem cmp (a b : Byte) : Statement (.cmp a b) := fun _ => ⟨rfl, by simp [encodeWith, Instr.operandBytes]⟩
theorem push (a : Byte) : Statement (.push a) := fun _ => ⟨rfl, by simp [encodeWith, Instr.operandBytes]⟩
theorem pop (a : Byte) : Statement (.pop a) := fun _ => ⟨rfl, by simp [encodeWith, Instr.operandBytes]⟩
theorem call (a : Byte) : Statement (.call a) := fun _ => ⟨rfl, by simp [encodeWith, Instr.operandBytes]⟩
theorem ret : Statement .ret := fun _ => ⟨rfl, by simp [encodeWith, Instr.operandBytes]⟩
theorem jmp (a : Byte) : Statement (.jmp a) := fun _ => ⟨rfl, by simp [encodeWith, Instr.operandBytes]⟩
theorem jeq (a : Byte) : Statement (.jeq a) := fun _ => ⟨rfl, by simp [encodeWith, Instr.operandBytes]⟩
theorem jne (a : Byte) : Statement (.jne a) := fun _ => ⟨rfl, by simp [encodeWith, Instr.operandBytes]⟩

end Sys2Proof.Laws.EncodedLength
end

