-- ==== Sys2Proof/Tests/Slice0.lean ====
section
/-! SUPPORT. Own tests: what the well-formedness check refuses, one word per constructor written out from
`30_encoding.md` R47, steps with the expected values of `95_test_vectors.md`, and the witnesses that the hypotheses of
the statements are met. -/

namespace Sys2Proof.Tests

open Sys2Proof Sys2Proof.Machine

/-! ### Well-formedness: one ill-formed term for each check (`30_encoding.md` R49) -/

theorem smoke_wf_accepts : Instr.wf (.ldi 7 0xFF) = true := by decide
theorem smoke_wf_ldi : Instr.wf (.ldi 8 0) = false := by decide
theorem smoke_wf_prn : Instr.wf (.prn 8) = false := by decide
theorem smoke_wf_mul_a : Instr.wf (.mul 9 0) = false := by decide
theorem smoke_wf_mul_b : Instr.wf (.mul 0 9) = false := by decide
theorem smoke_wf_add_a : Instr.wf (.add 8 0) = false := by decide
theorem smoke_wf_add_b : Instr.wf (.add 0 8) = false := by decide
theorem smoke_wf_cmp_a : Instr.wf (.cmp 255 0) = false := by decide
theorem smoke_wf_cmp_b : Instr.wf (.cmp 0 255) = false := by decide
theorem smoke_wf_push : Instr.wf (.push 8) = false := by decide
theorem smoke_wf_pop : Instr.wf (.pop 9) = false := by decide
theorem smoke_wf_call : Instr.wf (.call 8) = false := by decide
theorem smoke_wf_jmp : Instr.wf (.jmp 8) = false := by decide
theorem smoke_wf_jeq : Instr.wf (.jeq 9) = false := by decide
theorem smoke_wf_jne : Instr.wf (.jne 9) = false := by decide

/-! ### Decoding: opcode bytes of `30_encoding.md` R47 in binary, operands after them -/

theorem decode_hlt : decode [0b00000001] = .ok (.hlt, []) := rfl
theorem decode_ldi : decode [0b10000010, 0b00000101, 0b11001000] = .ok (.ldi 5 200, []) := rfl
theorem decode_prn : decode [0b01000111, 0b00000100] = .ok (.prn 4, []) := rfl
theorem decode_mul : decode [0b10100010, 0b00000010, 0b00000110] = .ok (.mul 2 6, []) := rfl
theorem decode_add : decode [0b10100000, 0b00000001, 0b00000011] = .ok (.add 1 3, []) := rfl
theorem decode_cmp : decode [0b10100111, 0b00000111, 0b00000000] = .ok (.cmp 7 0, []) := rfl
theorem decode_push : decode [0b01000101, 0b00000011] = .ok (.push 3, []) := rfl
theorem decode_pop : decode [0b01000110, 0b00000010] = .ok (.pop 2, []) := rfl
theorem decode_call : decode [0b01010000, 0b00000001] = .ok (.call 1, []) := rfl
theorem decode_ret : decode [0b00010001, 0xAA] = .ok (.ret, [0xAA]) := rfl
theorem decode_jmp : decode [0b01010100, 0b00000110] = .ok (.jmp 6, []) := rfl
theorem decode_jeq : decode [0b01010101, 0b00000011] = .ok (.jeq 3, []) := rfl
theorem decode_jne : decode [0b01010110, 0b00000101] = .ok (.jne 5, []) := rfl
theorem decode_table_word : decodeTableWord 24 0xC80582 = some (.ldi 5 200) := by decide
theorem decode_table_opcode_only : decodeTableWord 8 0xFFA7 = some (.cmp 0 0) := by decide
theorem decode_ignores_layout : decode [0x83, 0, 0] = .error (.unknownOpcode 0x83) := rfl

/-! ### One step, values of `95_test_vectors.md` -/

/-- A running state: PC, registers, flags, and memory cells in rising order. -/
def stateAt (pc : Addr) (regs : Vector Byte 8) (fl : FlagBits) (cells : List Host.Cell) : State :=
  { State.reset with pc := pc, regs := regs, fl := fl, mem := { cells := cells } }

/-- Registers 0 to 3 as given, 4 to 6 zero, and SP. -/
def regs4 (a b c d sp : Byte) : Vector Byte 8 := #v[a, b, c, d, 0, 0, 0, sp]

/-- Does the step under a window answer a next state with the property? -/
def stepGives (w : FetchWindow) (s : State) (p : State → Bool) : Bool :=
  match stepWith { window := w, opcodes := standardOpcodes } s with
  | .next t => p t
  | .fault _ => false
  | .refused _ => false

/-- T1.1 -/
theorem test_hlt : stepGives .arity (stateAt 0x20 (regs4 0 0 0 0 0xF4) 0 [(0x20, 0x01)])
    (fun t => t.run == .halted && t.pc == 0x20) = true := by decide
/-- T5.10: both windows -/
theorem test_hlt_last_cell : (stepGives .arity (stateAt 0xFF (regs4 0 0 0 0 0xF4) 0 [(0xFF, 0x01)])
      (fun t => t.run == .halted && t.pc == 0xFF) &&
    stepGives .always2 (stateAt 0xFF (regs4 0 0 0 0 0xF4) 0 [(0xFF, 0x01)])
      (fun t => t.status == some { kind := .outOfRangeAccess, info := 0x100, pc := 0xFF })) = true := by decide
/-- T1.5 -/
theorem test_ldi_sp : stepGives .arity (stateAt 0 (regs4 0 0 0 0 0xF4) 0 [(0, 0x82), (1, 7), (2, 0x80)])
    (fun t => t.sp == 0x80 && t.pc == 3) = true := by decide
/-- T5.6 -/
theorem test_ldi_to_the_end : stepGives .arity
    (stateAt 0xFD (regs4 0 0 0 0 0xF4) 0 [(0xFD, 0x82), (0xFE, 1), (0xFF, 7)])
    (fun t => t.reg 1 == 7 && t.pc == 0x100) = true := by decide
/-- T1.9 -/
theorem test_prn : stepGives .arity (stateAt 0 (regs4 0xFF 0 0 0 0xF4) 0 [(0, 0x47)])
    (fun t => t.out == [255] && t.pc == 2) = true := by decide
/-- T1.10 -/
theorem test_prn_bad_register : stepGives .arity (stateAt 0 (regs4 0 0 0 0 0xF4) 0 [(0, 0x47), (1, 8)])
    (fun t => t.status == some { kind := .invalidRegister, info := 8, pc := 0 } && t.out == [] && t.pc == 0) = true := by
  decide
/-- T2, MUL 12 34 -/
theorem test_mul : stepGives .arity (stateAt 0 (regs4 0x12 0x34 0 0 0xF4) 0b100 [(0, 0xA2), (2, 1)])
    (fun t => t.reg 0 == 0xA8 && t.reg 1 == 0x34 && t.fl == 0b100 && t.pc == 3) = true := by decide
/-- T2, MUL of one register FF -/
theorem test_mul_same : stepGives .arity (stateAt 0 (regs4 0 0 0xFF 0 0xF4) 0 [(0, 0xA2), (1, 2), (2, 2)])
    (fun t => t.reg 2 == 0x01) = true := by decide
/-- T2, ADD C8 64 -/
theorem test_add : stepGives .arity (stateAt 0 (regs4 0xC8 0x64 0 0 0xF4) 0b010 [(0, 0xA0), (2, 1)])
    (fun t => t.reg 0 == 0x2C && t.reg 1 == 0x64 && t.fl == 0b010 && t.pc == 3) = true := by decide
/-- T2, operand faults: opA first -/
theorem test_add_bad_register : stepGives .arity
    (stateAt 0 (regs4 0 0 0 0 0xF4) 0 [(0, 0xA0), (1, 9), (2, 0x0A)])
    (fun t => t.status == some { kind := .invalidRegister, info := 9, pc := 0 }) = true := by decide
/-- T2, CMP 80 7F is unsigned -/
theorem test_cmp_unsigned : stepGives .arity (stateAt 0 (regs4 0x80 0x7F 0 0 0xF4) 0b100 [(0, 0xA7), (2, 1)])
    (fun t => t.fl == 0b010 && t.reg 0 == 0x80 && t.pc == 3) = true := by decide
/-- T2, CMP with start FL 100 and equal values -/
theorem test_cmp_clears : stepGives .arity (stateAt 0 (regs4 5 5 0 0 0xF4) 0b100 [(0, 0xA7), (2, 1)])
    (fun t => t.fl == 0b001) = true := by decide
/-- T3.2 -/
theorem test_push_wraps : stepGives .arity (stateAt 0 (regs4 0 0 0 0x99 0) 0 [(0, 0x45), (1, 3)])
    (fun t => t.sp == 0xFF && t.mem.read 0xFF == 0x99 && t.pc == 2) = true := by decide
/-- T3.3 -/
theorem test_push_r7 : stepGives .arity (stateAt 0 (regs4 0 0 0 0 0xF4) 0 [(0, 0x45), (1, 7)])
    (fun t => t.sp == 0xF3 && t.mem.read 0xF3 == 0xF3) = true := by decide
/-- T3.5 -/
theorem test_pop_wraps : stepGives .arity (stateAt 0 (regs4 0 0 0 0 0xFF) 0 [(0, 0x46), (1, 2), (0xFF, 0x77)])
    (fun t => t.reg 2 == 0x77 && t.sp == 0 && t.mem.read 0xFF == 0x77) = true := by decide
/-- T3.6 -/
theorem test_pop_r7 : stepGives .arity (stateAt 0 (regs4 0 0 0 0 0xF3) 0 [(0, 0x46), (1, 7), (0xF3, 0x40)])
    (fun t => t.sp == 0x41) = true := by decide
/-- T4.3: both windows -/
theorem test_call_top : (stepGives .arity (stateAt 0xFE (regs4 0 9 0 0 0xF4) 0 [(0xF3, 0xEE), (0xFE, 0x50), (0xFF, 1)])
      (fun t => t.sp == 0xF3 && t.mem.read 0xF3 == 0 && t.pc == 9) &&
    stepGives .always2 (stateAt 0xFE (regs4 0 9 0 0 0xF4) 0 [(0xF3, 0xEE), (0xFE, 0x50), (0xFF, 1)])
      (fun t => t.status == some { kind := .outOfRangeAccess, info := 0x100, pc := 0xFE })) = true := by decide
/-- T4.4 -/
theorem test_call_r7 : stepGives .arity (stateAt 0 (regs4 0 0 0 0 0xF4) 0 [(0, 0x50), (1, 7)])
    (fun t => t.sp == 0xF3 && t.mem.read 0xF3 == 2 && t.pc == 0xF3) = true := by decide
/-- T4.2 -/
theorem test_ret : stepGives .arity (stateAt 0x12 (regs4 0 0 0 0 0xF3) 0 [(0x12, 0x11), (0xF3, 8)])
    (fun t => t.pc == 8 && t.sp == 0xF4 && t.mem.read 0xF3 == 8) = true := by decide
/-- T4.6 -/
theorem test_ret_wraps : stepGives .arity (stateAt 0x30 (regs4 0 0 0 0 0xFF) 0 [(0x30, 0x11), (0xFF, 0x44)])
    (fun t => t.pc == 0x44 && t.sp == 0) = true := by decide
/-- T4.9 -/
theorem test_jmp_r7 : stepGives .arity (stateAt 0x0A (regs4 0 0 0 0 0xF3) 0 [(0x0A, 0x54), (0x0B, 7)])
    (fun t => t.pc == 0xF3) = true := by decide
/-- T4, JEQ with FL 010 -/
theorem test_jeq_greater : stepGives .arity (stateAt 0x0C (regs4 0 0 0 0x10 0xF4) 0b010 [(0x0C, 0x55), (0x0D, 3)])
    (fun t => t.pc == 0x0E) = true := by decide
/-- T4.12: the operand is checked though the branch is not taken -/
theorem test_jeq_bad_register : stepGives .arity
    (stateAt 0x0C (regs4 0 0 0 0 0xF4) 0b010 [(0x0C, 0x55), (0x0D, 9)])
    (fun t => t.status == some { kind := .invalidRegister, info := 9, pc := 0x0C }) = true := by decide
/-- T4, JNE with FL 000 is taken -/
theorem test_jne_before_cmp : stepGives .arity (stateAt 0x0C (regs4 0 0 0 0x10 0xF4) 0 [(0x0C, 0x56), (0x0D, 3)])
    (fun t => t.pc == 0x10) = true := by decide
/-- T4, JNE with FL 001 -/
theorem test_jne_equal : stepGives .arity (stateAt 0x0C (regs4 0 0 0 0x10 0xF4) 0b001 [(0x0C, 0x56), (0x0D, 3)])
    (fun t => t.pc == 0x0E) = true := by decide
/-- T5.7: the fetch fault comes before the register check -/
theorem test_fetch_before_register : stepGives .arity
    (stateAt 0xFE (regs4 0 0 0 0 0xF4) 0 [(0xFE, 0x82), (0xFF, 9)])
    (fun t => t.status == some { kind := .outOfRangeAccess, info := 0x100, pc := 0xFE }) = true := by decide
/-- T5.11: both windows -/
theorem test_unknown_near_top : (stepGives .arity (stateAt 0xFE (regs4 0 0 0 0 0xF4) 0 [(0xFE, 2)])
      (fun t => t.status == some { kind := .unknownOpcode, info := 2, pc := 0xFE }) &&
    stepGives .always2 (stateAt 0xFE (regs4 0 0 0 0 0xF4) 0 [(0xFE, 2)])
      (fun t => t.status == some { kind := .outOfRangeAccess, info := 0x100, pc := 0xFE })) = true := by decide
/-- The numeric codes of `60_exceptions.md` R110. -/
theorem test_fault_codes : (faultCode .outOfRangeAccess, faultCode .unknownOpcode, faultCode .invalidRegister,
    faultCode .unsupportedAluOperation) = (1, 2, 3, 4) := rfl
/-- `70_reset_and_hazards.md` R130: an empty image and the default MEM_INIT give State.reset. -/
theorem test_boot_empty : boot (fun _ => 0) [] = some State.reset := by decide

/-! ### Witnesses: the hypotheses of the statements are met together -/

/-- The parameters of `step` with the window named. -/
def withWindow (w : FetchWindow) : Config := { window := w, opcodes := standardOpcodes }

/-- A state about to push register 0, whose pushed byte lands where the next instruction starts. -/
def aboutToPush : State := stateAt 6 (regs4 1 0 0 0 9) 0 [(6, 0x45)]

/-- A state about to compare registers 0 and 1. -/
def aboutToCompare : State := stateAt 0 (regs4 6 5 0 0 0xF4) 0b100 [(0, 0xA7), (2, 1)]

theorem witness_distinct : DistinctOpcodes standardOpcodes := by
  intro k k'
  cases k <;> cases k' <;> simp [standardOpcodes]
theorem witness_DecodedBytesAreTheEncoding :
    decodeWith standardOpcodes [0x82, 0xFF, 8, 1] = .ok (.ldi 0xFF 8, [1]) := rfl
theorem witness_LengthComesFromTheOpcodeAlone :
    decodeWith standardOpcodes (0x45 :: [0xA2]) = .ok (.push 0xA2, []) ∧
    decodeWith standardOpcodes (0x45 :: [0x01, 0x01]) = .ok (.push 1, [1]) := ⟨rfl, rfl⟩
theorem witness_StepExecutes_top : (stateAt 255 (regs4 0 0 0 0 0xF4) 0 [(255, 0x11)]).run = .running ∧
    decode (bytesAtPc (stateAt 255 (regs4 0 0 0 0 0xF4) 0 [(255, 0x11)])) = .ok (.ret, []) := ⟨rfl, rfl⟩
theorem witness_StepExecutes_253 :
    let s := stateAt 253 (regs4 0 0 0 0 0xF4) 0 [(253, 0x82), (254, 8), (255, 9)]
    s.run = .running ∧ s.pc.toNat ≤ 253 ∧
    decodeWith (withWindow .always2).opcodes (bytesAtPc s) = .ok (.ldi 8 9, []) := ⟨rfl, by decide, rfl⟩
theorem witness_Refusal_unknown :
    let s := stateAt 255 (regs4 0 0 0 0 0xF4) 0 [(255, 0x83)]
    s.run = .running ∧ s.pc.toNat ≤ 256 ∧ decode (bytesAtPc s) = .error (.unknownOpcode 0x83) := ⟨rfl, by decide, rfl⟩
theorem witness_Refusal_truncated :
    let s := stateAt 254 (regs4 0 0 0 0 0xF4) 0 [(254, 0x82)]
    s.run = .running ∧ s.pc.toNat ≤ 256 ∧ decode (bytesAtPc s) = .error .truncated := ⟨rfl, by decide, rfl⟩
theorem witness_Refusal_past_the_end :
    let s := stateAt 256 (regs4 0 0 0 0 0xF4) 0 []
    s.run = .running ∧ s.pc.toNat ≤ 256 ∧ decode (bytesAtPc s) = .error .truncated := ⟨rfl, by decide, rfl⟩
theorem witness_running : State.reset.run = .running := rfl
theorem witness_halted : (State.reset.setRun .halted).run = .halted := rfl
theorem witness_error : (State.reset.setRun .error).run = .error := rfl
theorem witness_step_halts :
    ∃ t, stepWith (withWindow .always2) (stateAt 0 (regs4 0 0 0 0 0xF4) 0 [(0, 1)]) = .next t ∧ t.run = .halted :=
  ⟨_, rfl, rfl⟩
theorem witness_step_faults :
    ∃ t, stepWith (withWindow .arity) State.reset = .next t ∧ t.run = .error := ⟨_, rfl, rfl⟩
theorem witness_NothingReturns : ∃ t, Instr.wf (.jmp 3) = true ∧
    exec (.jmp 3) State.reset = .next t ∧ t.run = .running := ⟨_, rfl, rfl, rfl⟩
theorem witness_hostReset : ∃ t, hostReset (State.reset.setRun .error) (fun _ => 7) [1] = some t := ⟨_, rfl⟩
theorem witness_UnknownOpcode_always2 :
    let s := stateAt 253 (regs4 0 0 0 0 0xF4) 0 [(253, 0x84)]
    s.run = .running ∧ s.pc.toNat ≤ 253 ∧ ∀ k, (withWindow .always2).opcodes k ≠ s.mem.read s.pc.toNat := by
  refine ⟨rfl, by decide, ?_⟩
  intro k
  cases k <;> decide
theorem witness_UnknownOpcode_arity :
    let s := stateAt 255 (regs4 0 0 0 0 0xF4) 0 [(255, 0x84)]
    s.run = .running ∧ (withWindow .arity).window = .arity ∧ s.pc.toNat ≤ 255 ∧
    ∀ k, (withWindow .arity).opcodes k ≠ s.mem.read s.pc.toNat := by
  refine ⟨rfl, rfl, by decide, ?_⟩
  intro k
  cases k <;> decide
theorem witness_Priority_opcode_fetch : 256 ≤ (stateAt 256 (regs4 0 0 0 0 0) 0 []).pc.toNat := by decide
theorem witness_Priority_unknown_255 :
    let s := stateAt 255 (regs4 0 0 0 0 0) 0 []
    s.pc.toNat ≤ 255 ∧ lookupOpcode standardOpcodes (s.mem.read s.pc.toNat) = none := by decide
theorem witness_Priority_operand_fetch_254 :
    let s := stateAt 254 (regs4 0 0 0 0 0) 0 [(254, 0x82), (255, 9)]
    s.pc.toNat ≤ 255 ∧ lookupOpcode standardOpcodes (s.mem.read s.pc.toNat) = some .ldi ∧
    s.pc.toNat + Mnemonic.arity .ldi ≥ 256 := by decide
theorem witness_Priority_register_253 :
    let s := stateAt 253 (regs4 0 0 0 0 0) 0 [(253, 0xA2), (255, 8)]
    lookupOpcode standardOpcodes (s.mem.read s.pc.toNat) = some .mul ∧ s.pc.toNat ≤ 253 ∧
    s.pc.toNat + Mnemonic.arity .mul ≤ 255 ∧
    (assemble .mul (s.mem.read (s.pc.toNat + 1)) (s.mem.read (s.pc.toNat + 2))).regOperands.find?
      (fun x => decide (7 < x.toNat)) = some 8 := by decide
theorem witness_Priority_beyond_256 : 256 < (stateAt 257 (regs4 0 0 0 0 0) 0 []).pc.toNat := by decide
theorem witness_Windows_top :
    let s := stateAt 254 (regs4 0 0 0 0 0) 0 [(254, 0x47)]
    254 ≤ s.pc.toNat ∧ s.pc.toNat + Mnemonic.arity .prn ≤ 255 ∧
    lookupOpcode standardOpcodes (s.mem.read s.pc.toNat) = some .prn := by decide
theorem witness_Windows_same : (stateAt 253 (regs4 0 0 0 0 0) 0 []).pc.toNat ≤ 253 ∧
    256 ≤ (stateAt 256 (regs4 0 0 0 0 0) 0 []).pc.toNat := by decide
theorem witness_Windows_safe :
    ∃ t, stepWith { window := .always2, opcodes := standardOpcodes } aboutToCompare = .next t ∧ Safe t :=
  ⟨_, rfl, by decide⟩
theorem witness_Memory_in : (255 : Addr).toNat ≤ 255 := by decide
theorem witness_Memory_out : 255 < (256 : Addr).toNat := by decide
theorem witness_MemoryRead_writes : ∃ t,
    List.foldlM (fun u (w : Addr × Addr) => memWrite w.1 w.2 u) State.reset [((255 : Addr), (256 : Addr)), (254, 1)] =
      .ok t ∧ ∀ w ∈ [((254 : Addr), (1 : Addr))], w.1 ≠ 255 := ⟨_, rfl, by simp⟩
theorem witness_MemoryRead_boot : ∃ s t, boot (fun _ => 7) [1, 2] = some s ∧
    List.foldlM (fun u (w : Addr × Addr) => memWrite w.1 w.2 u) s [((255 : Addr), (1 : Addr))] = .ok t ∧
    ∀ w ∈ [((255 : Addr), (1 : Addr))], w.1 ≠ 2 := ⟨_, _, rfl, rfl, by simp⟩
theorem witness_Canonical :
    let m := ({ cells := [] } : Memory)
    ((m.write 3 1).write 2 5).wf ∧ ((m.write 2 5).write 3 1).wf ∧
    ∀ a : Nat, a < memSize → ((m.write 3 1).write 2 5).read a = ((m.write 2 5).write 3 1).read a :=
  ⟨by decide, by decide, fun _ _ => rfl⟩
theorem witness_OnlyPushAndCallStore : ∃ t, stepWith (withWindow .arity) aboutToPush = .next t ∧
    ¬ MemSame aboutToPush t := ⟨_, rfl, fun h => absurd (h 8) (by decide)⟩
theorem witness_PushedByte : aboutToPush.run = .running ∧
    decode (bytesAtPc aboutToPush) = .ok (.push (regByte 0), [0]) ∧
    (pushAddress aboutToPush).toNat = aboutToPush.pc.toNat + 2 ∧ (spDec aboutToPush).reg 0 = standardOpcodes .hlt :=
  ⟨rfl, rfl, by decide, by decide⟩
theorem witness_OnlyPrint : ∃ t, stepWith (withWindow .arity) (stateAt 0 (regs4 7 0 0 0 0) 0 [(0, 0x47)]) = .next t ∧
    t.out = [7] := ⟨_, rfl, by decide⟩
theorem witness_Compare_each : (5 : Byte).toNat = (5 : Byte).toNat ∧ (0x80 : Byte).toNat > (0x7F : Byte).toNat ∧
    (0 : Byte).toNat < (0xFF : Byte).toNat := by decide
theorem witness_OnlyCompare : ∃ t, exec (.cmp 0 1) aboutToCompare = .next t ∧ t.fl ≠ aboutToCompare.fl :=
  ⟨_, rfl, by decide⟩
theorem witness_OnlyCompare_step : ∃ t, stepWith (withWindow .always2) aboutToCompare = .next t ∧
    t.fl ≠ aboutToCompare.fl := ⟨_, rfl, by decide⟩
theorem witness_OnlyCompare_add : ∃ t, exec (.add 0 1) aboutToCompare = .next t := ⟨_, rfl⟩
theorem witness_GreaterAndLess : ∃ t, (0b010 : FlagBits).getLsbD 0 = aboutToCompare.fl.getLsbD 0 ∧
    stepWith (withWindow .arity) aboutToCompare = .next t := ⟨_, by decide, rfl⟩
theorem witness_registers : (0 : Reg) ≠ spReg ∧ (6 : Reg) ≠ spReg ∧ (7 : Reg) = spReg := by decide
theorem witness_Pops : ([0, 6, 0] : List Reg).length ≤ 256 ∧ ∀ r ∈ ([0, 6, 0] : List Reg), r ≠ spReg := by decide
theorem witness_Pops_most : (List.replicate 256 (6 : Reg)).length ≤ 256 ∧
    ∀ r ∈ List.replicate 256 (6 : Reg), r ≠ spReg :=
  ⟨Nat.le_of_eq List.length_replicate, fun r h => (List.eq_of_mem_replicate h) ▸ (by decide : (6 : Reg) ≠ spReg)⟩
theorem witness_equal_flag : (0b001 : FlagBits).getLsbD 0 = true ∧ (0b110 : FlagBits).getLsbD 0 = false := by decide
theorem witness_Return : ∃ t u : State, (stateAt 253 (regs4 0 0x10 0 0 0xF4) 0 []).pc.toNat ≤ 253 ∧
    exec (.call (regByte 1)) (stateAt 253 (regs4 0 0x10 0 0 0xF4) 0 []) = .next t ∧ u.sp = t.sp ∧
    u.mem.read u.sp.toNat = t.mem.read t.sp.toNat := ⟨_, _, by decide, rfl, rfl, rfl⟩
theorem witness_Transfers : (∃ t, Instr.wf (.jeq 3) = true ∧ exec (.jeq 3) aboutToCompare = .next t) ∧
    (∃ t, Instr.wf (.call 7) = true ∧ exec (.call 7) aboutToCompare = .next t) := ⟨⟨_, rfl, rfl⟩, ⟨_, rfl, rfl⟩⟩
theorem witness_Transfers_rest : (∃ t, exec .hlt aboutToCompare = .next t) ∧ (∃ t, exec .ret aboutToCompare = .next t) ∧
    (∃ t, Instr.wf (.add 0 7) = true ∧ exec (.add 0 7) aboutToCompare = .next t ∧
      Instr.mnemonic (.add 0 7) ∉ [Mnemonic.hlt, .call, .ret, .jmp, .jeq, .jne]) :=
  ⟨⟨_, rfl⟩, ⟨_, rfl⟩, ⟨_, rfl, rfl, by decide⟩⟩
theorem witness_AluBlock : (aboutToCompare.reg 0) = 6 ∧ (aboutToCompare.reg 1) = 5 ∧ alu .mul 6 5 = .value 30 :=
  ⟨rfl, rfl, rfl⟩
theorem witness_Length_step : ∃ t, Instr.wf (.push 7) = true ∧
    Instr.mnemonic (.push 7) ∈ [Mnemonic.ldi, .prn, .mul, .add, .cmp, .push, .pop] ∧
    exec (.push 7) aboutToPush = .next t := ⟨_, rfl, by decide, rfl⟩
theorem witness_BadRegister_first : (Instr.mul 8 9).regOperands.find? (fun x => decide (7 < x.toNat)) = some 8 := by
  decide
theorem witness_BadRegister_second : (Instr.mul 7 255).regOperands.find? (fun x => decide (7 < x.toNat)) = some 255 := by
  decide
theorem witness_wellFormed : Instr.wf (.cmp 7 7) = true := by decide
theorem witness_Registers_read : ∃ t, Instr.wf (.pop 2) = true ∧ (2 : Reg) ∉ regsRead (.pop 2) State.reset ∧
    exec (.pop 2) State.reset = .next t ∧ (2 : Reg) ∈ regsWritten (.pop 2) := ⟨_, rfl, by decide, rfl, by decide⟩
theorem witness_Registers_untouched : ∃ t, Instr.wf (.jne 2) = true ∧ (2 : Reg) ∉ regsRead (.jne 2) (State.reset.setFl 1) ∧
    exec (.jne 2) (State.reset.setFl 1) = .next t ∧ (2 : Reg) ∉ regsWritten (.jne 2) := ⟨_, rfl, by decide, rfl, by decide⟩
theorem witness_OutputAndErr : ∃ t, stepWith (withWindow .arity) (State.reset.withFetchWord 16 0x0747) = .next t :=
  ⟨_, rfl⟩
theorem witness_Invariant : ∃ t, (stateAt 253 (regs4 0 0 0 0 0) 0b010 [(253, 0xA0)]).Inv ∧
    step (stateAt 253 (regs4 0 0 0 0 0) 0b010 [(253, 0xA0)]) = .next t ∧ t.pc.toNat = 256 :=
  ⟨_, by decide, rfl, by decide⟩
theorem witness_boot : ∃ s, boot (fun _ => 0x3C) [0x82, 0, 8] = some s := ⟨_, rfl⟩
theorem witness_FinalState_halted : ∃ t, (stateAt 255 (regs4 0 0 0 0 0) 0 [(255, 1)]).Inv ∧
    stepWith (withWindow .arity) (stateAt 255 (regs4 0 0 0 0 0) 0 [(255, 1)]) = .next t ∧ t.run = .halted :=
  ⟨_, by decide, rfl, rfl⟩
theorem witness_FinalState_error : ∃ t, (stateAt 256 (regs4 0 0 0 0 0) 0 []).Inv ∧
    stepWith (withWindow .arity) (stateAt 256 (regs4 0 0 0 0 0) 0 []) = .next t ∧ t.run = .error :=
  ⟨_, by decide, rfl, rfl⟩
theorem witness_FinalState_register : ∃ t, (stateAt 253 (regs4 0 0 0 0 0) 0 [(253, 0xA0), (254, 7), (255, 8)]).Inv ∧
    stepWith (withWindow .always2) (stateAt 253 (regs4 0 0 0 0 0) 0 [(253, 0xA0), (254, 7), (255, 8)]) = .next t ∧
    t.run = .error ∧ t.err = { kind := .invalidRegister, info := 8, pc := 253 } :=
  ⟨_, by decide, rfl, rfl, rfl⟩
theorem witness_Load : (List.replicate 256 (1 : Byte)).length ≤ 256 ∧ 256 < (List.replicate 257 (1 : Byte)).length := by
  rw [List.length_replicate, List.length_replicate]
  omega
theorem witness_Load_cells : ([0x82, 0, 8] : List Byte)[2]? = some 8 ∧ ([0x82, 0, 8] : List Byte).length ≤ 3 ∧ 3 < 256 := by
  decide

end Sys2Proof.Tests
end

/-! SUPPORT and PROOF. What one instruction and one step can do to RUN (`10_state.md` R16). -/

namespace Sys2Proof.Machine

/-! ### One instruction -/

/-- The result is a next state with RUN and ERR as they were in `s`. -/
def CompletesFrom (s : State) (res : Result) : Prop :=
  ∃ t, res = .next t ∧ t.run = s.run ∧ t.err = s.err

/-- The result completes, or is the InvalidRegister raise of a register operand, taken on `s` itself. -/
def CompletesOrRaisesFrom (s : State) (res : Result) : Prop :=
  CompletesFrom s res ∨ ∃ b, res = .next (raise (invalidRegister b) s)

theorem withReg_completesOrRaises {s : State} {k : Reg → Result} (a : Byte)
    (hk : ∀ r, CompletesOrRaisesFrom s (k r)) : CompletesOrRaisesFrom s (withReg a s k) := by
  obtain ⟨r, -, hr⟩ | ⟨-, hbad⟩ := withReg_cases a s k
  · exact hr ▸ hk r
  · exact .inr ⟨a, hbad⟩

theorem withRegs_completesOrRaises {s : State} {k : Reg → Reg → Result} (a b : Byte)
    (hk : ∀ ra rb, CompletesOrRaisesFrom s (k ra rb)) : CompletesOrRaisesFrom s (withRegs a b s k) :=
  withReg_completesOrRaises a fun ra => withReg_completesOrRaises b (hk ra)

@[simp] theorem exec_hlt (s : State) : exec .hlt s = .next (s.setRun .halted) := rfl

/-- Only HLT writes RUN in its own meaning; every other instruction completes or raises over a register operand. -/
theorem exec_completesOrRaises (i : Instr) (s : State) (hi : i ≠ .hlt) : CompletesOrRaisesFrom s (exec i s) := by
  cases i with
  | hlt => exact absurd rfl hi
  | ldi a imm => exact withReg_completesOrRaises a fun _ => .inl ⟨_, rfl, rfl, rfl⟩
  | prn a => exact withReg_completesOrRaises a fun _ => .inl ⟨_, rfl, rfl, rfl⟩
  | mul a b => exact withRegs_completesOrRaises a b fun ra rb => .inl ⟨_, aluStep_mul ra rb s, rfl, rfl⟩
  | add a b => exact withRegs_completesOrRaises a b fun ra rb => .inl ⟨_, aluStep_add ra rb s, rfl, rfl⟩
  | cmp a b => exact withRegs_completesOrRaises a b fun ra rb => .inl ⟨_, aluStep_cmp ra rb s, rfl, rfl⟩
  | push a => exact withReg_completesOrRaises a fun _ => .inl ⟨_, pushThen_eq _ s _, rfl, rfl⟩
  | pop a => exact withReg_completesOrRaises a fun _ => .inl ⟨_, popThen_eq s _, rfl, rfl⟩
  | call a => exact withReg_completesOrRaises a fun _ => .inl ⟨_, pushThen_eq _ s _, rfl, rfl⟩
  | ret => exact .inl ⟨_, popThen_eq s _, rfl, rfl⟩
  | jmp a => exact withReg_completesOrRaises a fun _ => .inl ⟨_, rfl, rfl, rfl⟩
  | jeq a => exact withReg_completesOrRaises a fun _ => .inl ⟨_, rfl, by split <;> rfl, by split <;> rfl⟩
  | jne a => exact withReg_completesOrRaises a fun _ => .inl ⟨_, rfl, by split <;> rfl, by split <;> rfl⟩

/-! ### One step -/

/-- The three ends of a step, told by RUN: a fetched HLT halts, anything else fetched goes on Running or raises, and a
fetch fault is a raise. -/
theorem stepWith_run_cases {c : Config} {s t : State} (h : stepWith c s = .next t) :
    (fetch c s = .ok .hlt ∧ t.run = .halted) ∨
    (fetch c s ≠ .ok .hlt ∧ (t.run = .running ∨ ∃ e, t = raise e s)) := by
  obtain ⟨hrun, ⟨e, he, rfl⟩ | ⟨i, hfetch, hexec⟩⟩ := stepWith_cases c s t h
  · exact .inr ⟨by simp [he], .inr ⟨e, rfl⟩⟩
  · by_cases hi : i = .hlt
    · subst hi
      cases (exec_hlt s).symm.trans hexec
      exact .inl ⟨hfetch, rfl⟩
    · refine .inr ⟨by simp [hfetch, hi], ?_⟩
      obtain ⟨u, hu, hkept, -⟩ | ⟨b, hb⟩ := exec_completesOrRaises i s hi
      · cases hexec.symm.trans hu
        exact .inl (hkept.trans hrun)
      · cases hexec.symm.trans hb
        exact .inr ⟨_, rfl⟩

/-- Settles O9: each of the three ends of a step leaves another RUN, so RUN tells which end it was. -/
theorem runStateChangesOnlyByHaltAndRaise : Obligations.RunStateChangesOnlyByHaltAndRaise := by
  refine ⟨rfl, fun c s t h => ⟨(stepWith_cases c s t h).1, ?_⟩⟩
  have raise_errs : (∃ e, t = raise e s) → t.run = .error := by
    rintro ⟨e, rfl⟩
    exact raise_run e s
  obtain ⟨hhlt, hrun⟩ | ⟨hne, hrun | hraise⟩ := stepWith_run_cases h
  · exact ⟨by simp [hhlt, hrun], by simp [hrun], fun he => absurd (raise_errs he) (by simp [hrun])⟩
  · exact ⟨by simp [hne, hrun], by simp [hrun], fun he => absurd (raise_errs he) (by simp [hrun])⟩
  · exact ⟨by simp [hne, raise_errs hraise], fun _ => hraise, raise_errs⟩

end Sys2Proof.Machine

/-! SUPPORT and PROOF. The length of an instruction, in the decoder, in the encoder and in PC (`30_encoding.md` R54). -/

namespace Sys2Proof.Machine

/-! ### The decoder and the encoder -/

@[simp] theorem mnemonic_assemble (k : Mnemonic) (a b : Byte) : (assemble k a b).mnemonic = k := by
  cases k <;> rfl

/-- An assembled instruction has the first `arity` of the two bytes it was given, and no other. -/
@[simp] theorem operandBytes_assemble (k : Mnemonic) (a b : Byte) :
    (assemble k a b).operandBytes = [a, b].take k.arity := by
  cases k <;> rfl

theorem length_encodeWith (m : OpcodeMap) (i : Instr) : (encodeWith m i).length = i.mnemonic.length :=
  match i with
  | .hlt => (Laws.EncodedLength.hlt m).1
  | .ldi a imm => (Laws.EncodedLength.ldi a imm m).1
  | .prn a => (Laws.EncodedLength.prn a m).1
  | .mul a b => (Laws.EncodedLength.mul a b m).1
  | .add a b => (Laws.EncodedLength.add a b m).1
  | .cmp a b => (Laws.EncodedLength.cmp a b m).1
  | .push a => (Laws.EncodedLength.push a m).1
  | .pop a => (Laws.EncodedLength.pop a m).1
  | .call a => (Laws.EncodedLength.call a m).1
  | .ret => (Laws.EncodedLength.ret m).1
  | .jmp a => (Laws.EncodedLength.jmp a m).1
  | .jeq a => (Laws.EncodedLength.jeq a m).1
  | .jne a => (Laws.EncodedLength.jne a m).1

theorem length_operandBytes (i : Instr) : i.operandBytes.length = i.mnemonic.arity := by
  have hlen := length_encodeWith standardOpcodes i
  rw [encodeWith, List.length_cons, Mnemonic.length] at hlen
  omega

/-- What a successful decode says: the first byte alone gives the mnemonic, and the bytes after it are the operand
bytes of the instruction and then the rest. -/
theorem decodeWith_cons_ok {m : OpcodeMap} {ir : Byte} {xs rest : List Byte} {i : Instr}
    (h : decodeWith m (ir :: xs) = .ok (i, rest)) :
    lookupOpcode m ir = some i.mnemonic ∧ xs = i.operandBytes ++ rest := by
  simp only [decodeWith] at h
  split at h
  · cases h
  · rename_i k hk
    split at h <;> rename_i harity
    case h_4 => cases h
    all_goals
      cases h
      simp [hk, harity]

/-- The rest after a decode begins past as many bytes as the mnemonic has operands. -/
theorem decodeWith_cons_rest {m : OpcodeMap} {ir : Byte} {xs rest : List Byte} {i : Instr}
    (h : decodeWith m (ir :: xs) = .ok (i, rest)) : rest = xs.drop i.mnemonic.arity := by
  obtain ⟨-, rfl⟩ := decodeWith_cons_ok h
  exact (List.drop_left' (length_operandBytes i)).symm

/-! ### PC in straight-line code -/

theorem wf_iff (i : Instr) : i.wf = true ↔ ∀ b ∈ i.regOperands, b.toNat ≤ 7 := by
  simp [Instr.wf]

/-- An operand byte up to 7 is never refused: what holds of the continuation for every register holds of the result. -/
theorem withReg_of_le {P : Result → Prop} {a : Byte} {s : State} {k : Reg → Result} (ha : a.toNat ≤ 7)
    (hk : ∀ r, P (k r)) : P (withReg a s k) := by
  obtain ⟨r, -, hr⟩ | ⟨hbad, -⟩ := withReg_cases a s k
  · exact hr ▸ hk r
  · omega

theorem withRegs_of_le {P : Result → Prop} {a b : Byte} {s : State} {k : Reg → Reg → Result} (ha : a.toNat ≤ 7)
    (hb : b.toNat ≤ 7) (hk : ∀ ra rb, P (k ra rb)) : P (withRegs a b s k) :=
  withReg_of_le ha fun ra => withReg_of_le hb (hk ra)

/-- The result is a next state whose PC is `n` past the PC of `s`. -/
def AdvancesPcBy (n : Nat) (s : State) (res : Result) : Prop :=
  ∃ t, res = .next t ∧ t.pc = s.pc + BitVec.ofNat 9 n

/-- A well-formed instruction that neither halts nor transfers control moves PC on by its length. -/
theorem exec_advancesPc_of_straightLine {i : Instr} (s : State) (hwf : i.wf = true)
    (hi : i.mnemonic ∈ [.ldi, .prn, .mul, .add, .cmp, .push, .pop]) :
    AdvancesPcBy i.mnemonic.length s (exec i s) := by
  have hops := (wf_iff i).1 hwf
  cases i with
  | ldi a imm => exact withReg_of_le (hops a (.head _)) fun _ => ⟨_, rfl, rfl⟩
  | prn a => exact withReg_of_le (hops a (.head _)) fun _ => ⟨_, rfl, rfl⟩
  | mul a b =>
    exact withRegs_of_le (hops a (.head _)) (hops b (.tail _ (.head _))) fun ra rb => ⟨_, aluStep_mul ra rb s, rfl⟩
  | add a b =>
    exact withRegs_of_le (hops a (.head _)) (hops b (.tail _ (.head _))) fun ra rb => ⟨_, aluStep_add ra rb s, rfl⟩
  | cmp a b =>
    exact withRegs_of_le (hops a (.head _)) (hops b (.tail _ (.head _))) fun ra rb => ⟨_, aluStep_cmp ra rb s, rfl⟩
  | push a => exact withReg_of_le (hops a (.head _)) fun _ => ⟨_, pushThen_eq _ s _, rfl⟩
  | pop a => exact withReg_of_le (hops a (.head _)) fun _ => ⟨_, popThen_eq s _, rfl⟩
  | hlt | call _ | ret | jmp _ | jeq _ | jne _ => simp [Instr.mnemonic] at hi

/-- Settles O5: both decodes look the one first byte up, so the mnemonic is shared, and the mnemonic fixes the number of
operand bytes, the encoded length and the advance of PC. -/
theorem lengthComesFromTheOpcodeAlone : Obligations.LengthComesFromTheOpcodeAlone := by
  refine ⟨fun m ir xs ys xrest yrest i j hi hj => ?_, fun m i s t hwf hline hexec => ?_⟩
  · obtain ⟨hki, -⟩ := decodeWith_cons_ok hi
    obtain ⟨hkj, -⟩ := decodeWith_cons_ok hj
    have hsame : i.mnemonic = j.mnemonic := Option.some.inj (hki.symm.trans hkj)
    exact ⟨hsame, hki, decodeWith_cons_rest hi, hsame ▸ decodeWith_cons_rest hj, length_encodeWith m i,
      hsame ▸ length_encodeWith m j⟩
  · obtain ⟨u, hu, hpc⟩ := exec_advancesPc_of_straightLine s hwf hline
    cases hexec.symm.trans hu
    rw [length_encodeWith, hpc]

end Sys2Proof.Machine

/-! SUPPORT and PROOF. The lookup of the opcode byte, and the fetch and the step by what RUN and the lookup say
(`40_execution_cycle.md` R60, R61, R64). -/

namespace Sys2Proof.Machine

/-! ### The lookup -/

theorem mem_mnemonicRows (k : Mnemonic) : k ∈ mnemonicRows := by
  cases k <;> decide

/-- The lookup goes through every mnemonic, so it finds none exactly when no mnemonic has the byte. -/
theorem lookupOpcode_eq_none_iff (m : OpcodeMap) (ir : Byte) : lookupOpcode m ir = none ↔ ∀ k, m k ≠ ir := by
  simp [lookupOpcode, List.find?_eq_none, mem_mnemonicRows]

/-- The lookup inverts a map of distinct opcodes. -/
theorem lookupOpcode_eq_some_iff {m : OpcodeMap} (hm : DistinctOpcodes m) (ir : Byte) (k : Mnemonic) :
    lookupOpcode m ir = some k ↔ m k = ir := by
  refine ⟨lookupOpcode_sound m ir k, fun hk => ?_⟩
  cases hfound : lookupOpcode m ir with
  | none => exact absurd hk ((lookupOpcode_eq_none_iff m ir).1 hfound k)
  | some k' => rw [hm k' k ((lookupOpcode_sound m ir k' hfound).trans hk.symm)]

theorem decodeOpcode_of_unknown {m : OpcodeMap} {ir : Byte} (h : ∀ k, m k ≠ ir) :
    decodeOpcode m ir = .error { kind := .unknownOpcode, info := zext9 ir } := by
  simp [decodeOpcode, (lookupOpcode_eq_none_iff m ir).2 h]

/-! ### The fetch -/

/-- A read past PC that stays inside the memory succeeds. -/
theorem memRead_pc_add {s : State} {a : Addr} (h : s.pc.toNat + a.toNat < memSize) :
    memRead (s.pc + a) s = .ok (s.mem.read (s.pc.toNat + a.toNat)) := by
  have hsum : (s.pc + a).toNat = s.pc.toNat + a.toNat :=
    BitVec.toNat_add_of_lt (h.trans (by decide))
  rw [memRead_in _ _ (hsum ▸ h), hsum]

/-- Under `arity` the lookup is the first check after the read of the opcode byte; under `always2` it comes after the
reads of the two bytes that follow. Where those are in range, an unknown byte is what the fetch raises. -/
theorem fetch_of_unknown {c : Config} {s : State}
    (hpc : s.pc.toNat ≤ 253 ∨ (c.window = .arity ∧ s.pc.toNat ≤ 255))
    (hunknown : ∀ k, c.opcodes k ≠ s.mem.read s.pc.toNat) :
    fetch c s = .error { kind := .unknownOpcode, info := zext9 (s.mem.read s.pc.toNat) } := by
  have hir : memRead s.pc s = .ok (s.mem.read s.pc.toNat) := memRead_in s.pc s (by simp only [memSize]; omega)
  have hdecode := decodeOpcode_of_unknown hunknown
  cases hwindow : c.window with
  | arity => simp [fetch, hwindow, hir, hdecode, bind, Except.bind]
  | always2 =>
    have htop : s.pc.toNat ≤ 253 := by simpa [hwindow] using hpc
    have hopA := memRead_pc_add (s := s) (a := 1#9) (by simp [memSize]; omega)
    have hopB := memRead_pc_add (s := s) (a := 2#9) (by simp [memSize]; omega)
    simp [fetch, hwindow, hir, hopA, hopB, hdecode, bind, Except.bind]

/-! ### One step -/

theorem stepWith_of_halted (c : Config) {s : State} (h : s.run = .halted) : stepWith c s = .fault .coreHalted := by
  simp [stepWith, h]

theorem stepWith_of_error (c : Config) {s : State} (h : s.run = .error) : stepWith c s = .fault .coreInError := by
  simp [stepWith, h]

theorem stepWith_of_fetch_ok {c : Config} {s : State} {i : Instr} (h : s.run = .running) (hf : fetch c s = .ok i) :
    stepWith c s = exec i s := by
  simp [stepWith, h, hf]

theorem stepWith_of_fetch_error {c : Config} {s : State} {e : Raised} (h : s.run = .running)
    (hf : fetch c s = .error e) : stepWith c s = .next (raise e s) := by
  simp [stepWith, h, hf]

/-- Every instruction's meaning answers a next state. -/
theorem exec_eq_next (i : Instr) (s : State) : ∃ t, exec i s = .next t := by
  by_cases hi : i = .hlt
  · exact ⟨_, hi ▸ exec_hlt s⟩
  · obtain ⟨t, ht, -⟩ | ⟨b, hb⟩ := exec_completesOrRaises i s hi
    · exact ⟨t, ht⟩
    · exact ⟨_, hb⟩

/-- A step of a running core executes the fetched instruction or takes the fetch's fault. -/
theorem stepWith_of_running (c : Config) {s : State} (h : s.run = .running) :
    (∃ i, fetch c s = .ok i ∧ stepWith c s = exec i s) ∨
    (∃ e, fetch c s = .error e ∧ stepWith c s = .next (raise e s)) := by
  cases hf : fetch c s with
  | ok i => exact .inl ⟨i, rfl, stepWith_of_fetch_ok h hf⟩
  | error e => exact .inr ⟨e, rfl, stepWith_of_fetch_error h hf⟩

/-- A run of at least one step ends with the fault of its first one. -/
theorem run_succ_of_step_fault {M : Host.Core} {s : M.State} {r : M.Fault} (h : M.step s = .fault r) (n : Nat) :
    M.run (n + 1) s = .fault r := by
  simp [Host.Core.run, h]

/-- Settles O8: while RUN is Running either end of the step is a next state, and in Halted and Error the first step of
any run is a fault. -/
theorem stepIsEnabledExactlyWhileRunning : Obligations.StepIsEnabledExactlyWhileRunning := by
  refine fun c s => ⟨⟨fun ⟨t, ht⟩ => (stepWith_cases c s t ht).1, fun hrun => ?_⟩, stepWith_of_running c,
    fun n h => run_succ_of_step_fault (stepWith_of_halted defaultConfig h) n,
    fun n h => run_succ_of_step_fault (stepWith_of_error defaultConfig h) n⟩
  obtain ⟨i, -, hexec⟩ | ⟨e, -, hraise⟩ := stepWith_of_running c hrun
  · exact hexec ▸ exec_eq_next i s
  · exact ⟨_, hraise⟩

/-- Settles O12: the lookup misses, the fetch raises, and the raise leaves RUN at Error. -/
theorem unknownOpcodeIsRaisedAndStops : Obligations.UnknownOpcodeIsRaisedAndStops :=
  ⟨fun _ ir k hm => lookupOpcode_eq_some_iff hm ir k, lookupOpcode_eq_none_iff, fun c s hrun hpc hunknown =>
    ⟨_, rfl, stepWith_of_fetch_error hrun (fetch_of_unknown hpc hunknown), stepWith_of_error c (raise_run _ s)⟩⟩

end Sys2Proof.Machine

/-! SUPPORT and PROOF. The ALU block and its three instructions, and which instructions write FL (`42_alu.md` R85,
R91). -/

namespace Sys2Proof.Machine

/-! ### The ALU block -/

theorem flagsOfCompare_of_eq {a b : Byte} (h : a = b) : flagsOfCompare a b = flagE :=
  if_pos (congrArg BitVec.toNat h)

theorem flagsOfCompare_of_gt {a b : Byte} (h : b.toNat < a.toNat) : flagsOfCompare a b = flagG := by
  simp [flagsOfCompare, h, h.ne']

theorem flagsOfCompare_of_lt {a b : Byte} (h : a.toNat < b.toNat) : flagsOfCompare a b = flagL := by
  simp [flagsOfCompare, h.ne, h.not_gt]

theorem alu_cmp (a b : Byte) : alu .cmp a b = .flags (flagsOfCompare a b) := rfl

/-! ### The ALU instructions, by what the block answers -/

section
variable {op : AluOp} {ra rb : Reg} {s : State}

theorem aluStep_of_value {y : Byte} (h : alu op (s.reg ra) (s.reg rb) = .value y) :
    aluStep op ra rb s = .next ((s.setReg ra y).advance 3) := by
  simp [aluStep, h]

theorem aluStep_of_flags {f : FlagBits} (h : alu op (s.reg ra) (s.reg rb) = .flags f) :
    aluStep op ra rb s = .next ((s.setFl f).advance 3) := by
  simp [aluStep, h]

theorem aluStep_of_fault {e : Raised} (h : alu op (s.reg ra) (s.reg rb) = .fault e) :
    aluStep op ra rb s = .next (raise e s) := by
  simp [aluStep, h]

end

@[simp] theorem withRegs_regByte (ra rb : Reg) (s : State) (k : Reg → Reg → Result) :
    withRegs (regByte ra) (regByte rb) s k = k ra rb := by
  simp [withRegs]

@[simp] theorem exec_add_regByte (ra rb : Reg) (s : State) :
    exec (.add (regByte ra) (regByte rb)) s = aluStep .add ra rb s :=
  withRegs_regByte ra rb s _

@[simp] theorem exec_mul_regByte (ra rb : Reg) (s : State) :
    exec (.mul (regByte ra) (regByte rb)) s = aluStep .mul ra rb s :=
  withRegs_regByte ra rb s _

@[simp] theorem exec_cmp_regByte (ra rb : Reg) (s : State) :
    exec (.cmp (regByte ra) (regByte rb)) s = aluStep .cmp ra rb s :=
  withRegs_regByte ra rb s _

/-- Settles O27: the block's answer for each operation, and where the instruction that drives it puts the answer. -/
theorem aluBlockComputes : Obligations.AluBlockComputes := by
  intro a b
  refine ⟨⟨_, alu_add a b, BitVec.toNat_add a b⟩, ⟨_, alu_mul a b, BitVec.toNat_mul a b⟩,
    fun h => (alu_cmp a b).trans (congrArg _ (flagsOfCompare_of_eq h)),
    fun h => (alu_cmp a b).trans (congrArg _ (flagsOfCompare_of_gt h)),
    fun h => (alu_cmp a b).trans (congrArg _ (flagsOfCompare_of_lt h)), rfl, ?_⟩
  rintro ra rb s rfl rfl
  refine ⟨aluStep_of_fault rfl, fun y h => ?_, fun y h => ?_, fun f h => ?_⟩
  · exact ⟨_, (exec_add_regByte ra rb s).trans (aluStep_of_value h), by simp⟩
  · exact ⟨_, (exec_mul_regByte ra rb s).trans (aluStep_of_value h), by simp⟩
  · exact ⟨_, (exec_cmp_regByte ra rb s).trans (aluStep_of_flags h), by simp⟩

/-! ### Which instructions write FL -/

/-- The result is a next state with FL as it was in `s`. -/
def LeavesFlags (s : State) (res : Result) : Prop :=
  ∃ t, res = .next t ∧ t.fl = s.fl

theorem LeavesFlags.fl_eq {s t : State} {res : Result} (h : LeavesFlags s res) (hres : res = .next t) :
    t.fl = s.fl := by
  obtain ⟨u, hu, hfl⟩ := h
  cases hu.symm.trans hres
  exact hfl

/-- The raise over a bad operand leaves FL alone, so the continuation decides. -/
theorem withReg_leavesFlags {s : State} {k : Reg → Result} (a : Byte) (hk : ∀ r, LeavesFlags s (k r)) :
    LeavesFlags s (withReg a s k) := by
  obtain ⟨r, -, hr⟩ | ⟨-, hbad⟩ := withReg_cases a s k
  · exact hr ▸ hk r
  · exact ⟨_, hbad, raise_fl _ s⟩

theorem withRegs_leavesFlags {s : State} {k : Reg → Reg → Result} (a b : Byte)
    (hk : ∀ ra rb, LeavesFlags s (k ra rb)) : LeavesFlags s (withRegs a b s k) :=
  withReg_leavesFlags a fun ra => withReg_leavesFlags b (hk ra)

/-- Every instruction but CMP leaves FL as it was, whether it completes or raises. -/
theorem exec_leavesFlags {i : Instr} (s : State) (hi : ∀ a b, i ≠ .cmp a b) : LeavesFlags s (exec i s) := by
  cases i with
  | hlt => exact ⟨_, exec_hlt s, rfl⟩
  | ldi a imm => exact withReg_leavesFlags a fun _ => ⟨_, rfl, rfl⟩
  | prn a => exact withReg_leavesFlags a fun _ => ⟨_, rfl, rfl⟩
  | mul a b => exact withRegs_leavesFlags a b fun ra rb => ⟨_, aluStep_mul ra rb s, rfl⟩
  | add a b => exact withRegs_leavesFlags a b fun ra rb => ⟨_, aluStep_add ra rb s, rfl⟩
  | cmp a b => exact absurd rfl (hi a b)
  | push a => exact withReg_leavesFlags a fun _ => ⟨_, pushThen_eq _ s _, rfl⟩
  | pop a => exact withReg_leavesFlags a fun _ => ⟨_, popThen_eq s _, rfl⟩
  | call a => exact withReg_leavesFlags a fun _ => ⟨_, pushThen_eq _ s _, rfl⟩
  | ret => exact ⟨_, popThen_eq s _, rfl⟩
  | jmp a => exact withReg_leavesFlags a fun _ => ⟨_, rfl, rfl⟩
  | jeq a => exact withReg_leavesFlags a fun _ => ⟨_, rfl, by split <;> rfl⟩
  | jne a => exact withReg_leavesFlags a fun _ => ⟨_, rfl, by split <;> rfl⟩

theorem exec_fl_of_ne_cmp {i : Instr} {s t : State} (hi : ∀ a b, i ≠ .cmp a b) (h : exec i s = .next t) :
    t.fl = s.fl :=
  (exec_leavesFlags s hi).fl_eq h

theorem exists_eq_cmp_of_fl_ne {i : Instr} {s t : State} (h : exec i s = .next t) (hfl : t.fl ≠ s.fl) :
    ∃ a b, i = .cmp a b := by
  by_contra! hi
  exact hfl (exec_fl_of_ne_cmp hi h)

/-- Settles O31: a step that changes FL is no fetch fault, so it executed an instruction, and every one but CMP leaves
FL; CMP's flags are those of the two registers, which `setFl` does not touch. -/
theorem onlyCompareWritesFlags : Obligations.OnlyCompareWritesFlags := by
  refine ⟨fun i s t => exists_eq_cmp_of_fl_ne, fun c s t h hfl => ?_, fun a b s t h => ?_, fun a b f s => ?_⟩
  · obtain ⟨-, ⟨e, -, rfl⟩ | ⟨i, hfetch, hexec⟩⟩ := stepWith_cases c s t h
    · exact absurd (raise_fl e s) hfl
    · obtain ⟨x, y, rfl⟩ := exists_eq_cmp_of_fl_ne hexec hfl
      exact ⟨x, y, hfetch⟩
  · obtain h | h := h
    · exact exec_fl_of_ne_cmp (by simp) h
    · exact exec_fl_of_ne_cmp (by simp) h
  · have hcmp := fun u : State => (exec_cmp_regByte a b u).trans (aluStep_cmp a b u)
    refine ⟨_, _, hcmp s, hcmp (s.setFl f), rfl, ?_⟩
    obtain ⟨-, he⟩ | ⟨-, hg⟩ | ⟨-, hl⟩ := flagsOfCompare_cases (s.reg a) (s.reg b)
    · exact .inl he
    · exact .inr (.inl hg)
    · exact .inr (.inr hl)

end Sys2Proof.Machine

/-! SUPPORT and PROOF. What a well-formed instruction and a reset do to RUN and ERR (`60_exceptions.md` R118). -/

namespace Sys2Proof.Machine

/-! ### One instruction -/

/-- A well-formed instruction has no bad operand to raise over, and nothing past the operand check raises, so each one
but HLT completes. -/
theorem exec_completes_of_wf {i : Instr} (s : State) (hwf : i.wf = true) (hi : i ≠ .hlt) :
    CompletesFrom s (exec i s) := by
  have hops := (wf_iff i).1 hwf
  cases i with
  | hlt => exact absurd rfl hi
  | ldi a imm => exact withReg_of_le (hops a (.head _)) fun _ => ⟨_, rfl, rfl, rfl⟩
  | prn a => exact withReg_of_le (hops a (.head _)) fun _ => ⟨_, rfl, rfl, rfl⟩
  | mul a b =>
    exact withRegs_of_le (hops a (.head _)) (hops b (.tail _ (.head _))) fun ra rb =>
      ⟨_, aluStep_mul ra rb s, rfl, rfl⟩
  | add a b =>
    exact withRegs_of_le (hops a (.head _)) (hops b (.tail _ (.head _))) fun ra rb =>
      ⟨_, aluStep_add ra rb s, rfl, rfl⟩
  | cmp a b =>
    exact withRegs_of_le (hops a (.head _)) (hops b (.tail _ (.head _))) fun ra rb =>
      ⟨_, aluStep_cmp ra rb s, rfl, rfl⟩
  | push a => exact withReg_of_le (hops a (.head _)) fun _ => ⟨_, pushThen_eq _ s _, rfl, rfl⟩
  | pop a => exact withReg_of_le (hops a (.head _)) fun _ => ⟨_, popThen_eq s _, rfl, rfl⟩
  | call a => exact withReg_of_le (hops a (.head _)) fun _ => ⟨_, pushThen_eq _ s _, rfl, rfl⟩
  | ret => exact ⟨_, popThen_eq s _, rfl, rfl⟩
  | jmp a => exact withReg_of_le (hops a (.head _)) fun _ => ⟨_, rfl, rfl, rfl⟩
  | jeq a => exact withReg_of_le (hops a (.head _)) fun _ => ⟨_, rfl, by split <;> rfl, by split <;> rfl⟩
  | jne a => exact withReg_of_le (hops a (.head _)) fun _ => ⟨_, rfl, by split <;> rfl, by split <;> rfl⟩

/-- ERR is kept by HLT, which writes only RUN, and by whatever completes. -/
theorem exec_err_of_wf {i : Instr} {s t : State} (hwf : i.wf = true) (h : exec i s = .next t) : t.err = s.err := by
  by_cases hi : i = .hlt
  · subst hi
    cases (exec_hlt s).symm.trans h
    exact setRun_err s .halted
  · obtain ⟨u, hu, -, herr⟩ := exec_completes_of_wf s hwf hi
    cases hu.symm.trans h
    exact herr

/-- RUN is Running after an instruction only if it was before: HLT leaves Halted, a raise leaves Error, and every other
end keeps RUN. -/
theorem running_of_exec_running {i : Instr} {s t : State} (h : exec i s = .next t) (ht : t.run = .running) :
    s.run = .running := by
  by_cases hi : i = .hlt
  · subst hi
    cases (exec_hlt s).symm.trans h
    simp at ht
  · obtain ⟨u, hu, hkept, -⟩ | ⟨b, hb⟩ := exec_completesOrRaises i s hi
    · cases hu.symm.trans h
      exact hkept.symm.trans ht
    · cases hb.symm.trans h
      simp at ht

/-! ### Reset -/

/-- What a boot that starts the core leaves: the reset state with the loaded memory. -/
theorem boot_eq_some {memInit : Nat → Byte} {image : List Byte} {t : State} (h : boot memInit image = some t) :
    image.length ≤ memSize ∧ t = State.reset.setMem (Memory.ofFn fun a => (image[a]?).getD (memInit a)) := by
  unfold boot at h
  split at h
  · rename_i hfits
    exact ⟨hfits, (Option.some.inj h).symm⟩
  · cases h

/-- A reset reads nothing of the state it discards. -/
theorem hostReset_eq_boot (s : State) : hostReset s = boot := rfl

theorem hostReset_run {s t : State} {memInit : Nat → Byte} {image : List Byte}
    (h : hostReset s memInit image = some t) : t.run = .running := by
  obtain ⟨-, rfl⟩ := boot_eq_some (hostReset_eq_boot s ▸ h)
  rfl

/-- Settles O10: Error enables no step, no end of an instruction turns RUN to Running, a well-formed instruction keeps
ERR, and reset is a boot, whatever the state was. -/
theorem nothingReturnsFromAFault : Obligations.NothingReturnsFromAFault := by
  refine ⟨fun c _ => stepWith_of_error c, fun _ _ _ => running_of_exec_running, fun _ _ _ => exec_err_of_wf,
    fun s other t memInit image h => ⟨hostReset_run h, ?_⟩⟩
  rwa [hostReset_eq_boot] at h ⊢

end Sys2Proof.Machine

/-! SUPPORT and PROOF. The decoder and the encoder are inverse to each other, under every opcode map
(`30_encoding.md` sections 1, 2, 4 and 5). -/

namespace Sys2Proof.Machine

/-! ### The decoder, by what the lookup of the first byte answers -/

section
variable {m : OpcodeMap} {ir : Byte}

theorem decodeWith_of_unknown (h : lookupOpcode m ir = none) (xs : List Byte) :
    decodeWith m (ir :: xs) = .error (.unknownOpcode ir) := by
  simp [decodeWith, h]

/-- Where the operand bytes of the mnemonic do not all follow, the decoder says truncated. -/
theorem decodeWith_of_short {k : Mnemonic} {xs : List Byte} (h : lookupOpcode m ir = some k)
    (hshort : xs.length < k.arity) : decodeWith m (ir :: xs) = .error .truncated := by
  simp only [decodeWith, h]
  split <;> simp_all

/-- Where the operand bytes of an instruction follow its opcode byte, the decoder reads that instruction. -/
theorem decodeWith_of_operandBytes {i : Instr} (h : lookupOpcode m ir = some i.mnemonic) (rest : List Byte) :
    decodeWith m (ir :: (i.operandBytes ++ rest)) = .ok (i, rest) := by
  cases i <;> simp [decodeWith, h, Instr.mnemonic, Instr.operandBytes, Mnemonic.arity, assemble]

end

/-- Settles O1: the lookup inverts a distinct map, so the opcode byte gives the mnemonic back, and the operand bytes
follow. -/
theorem decodeAfterEncode : Obligations.DecodeAfterEncode := fun m hm i rest =>
  decodeWith_of_operandBytes ((lookupOpcode_eq_some_iff hm (m i.mnemonic) i.mnemonic).2 rfl) rest

/-- Settles O2: the first byte is the opcode of the mnemonic the lookup found, and the bytes after it are the operand
bytes and the rest. -/
theorem decodedBytesAreTheEncoding : Obligations.DecodedBytesAreTheEncoding := by
  intro m bytes rest i h
  cases bytes with
  | nil => cases h
  | cons ir xs =>
    obtain ⟨hlookup, rfl⟩ := decodeWith_cons_ok h
    simp [encodeWith, lookupOpcode_sound m ir _ hlookup]

/-- Settles O3: the standard map's lookup of each first byte, and the operand bytes after it. -/
theorem familyWordsDecode : Obligations.FamilyWordsDecode :=
  ⟨rfl, rfl, rfl, rfl, rfl, rfl, rfl, rfl, rfl, rfl, rfl⟩

/-! ### The bytes that are no opcode -/

theorem nodup_mnemonicRows : mnemonicRows.Nodup := by
  decide

/-- The standard opcode values are 13 distinct bytes: the lookup finds each mnemonic back from its own byte. -/
theorem distinct_standardOpcodes : DistinctOpcodes standardOpcodes := by
  have hback : ∀ k, lookupOpcode standardOpcodes (standardOpcodes k) = some k := fun k => by cases k <;> decide
  intro k k' h
  exact Option.some.inj ((hback k).symm.trans (h ▸ hback k'))

/-- The numbers of the bytes that are an opcode, as the predicate that `filter` takes. -/
def isOpcode (m : OpcodeMap) (n : Nat) : Bool := (lookupOpcode m (BitVec.ofNat 8 n)).isSome

theorem isOpcode_iff (m : OpcodeMap) {n : Nat} (hn : n < 256) : isOpcode m n = true ↔ ∃ k, (m k).toNat = n := by
  have hbyte : ∀ b : Byte, b = BitVec.ofNat 8 n ↔ b.toNat = n := fun b => by
    rw [BitVec.toNat_eq, BitVec.toNat_ofNat, Nat.mod_eq_of_lt hn]
  simp [isOpcode, Option.isSome_iff_ne_none, lookupOpcode_eq_none_iff, hbyte]

/-- The opcode bytes in rising order are the 13 values of a distinct map, in another order. -/
theorem opcodes_perm {m : OpcodeMap} (hm : DistinctOpcodes m) :
    ((List.range 256).filter (isOpcode m)).Perm (mnemonicRows.map fun k => (m k).toNat) := by
  refine (List.perm_ext_iff_of_nodup (List.nodup_range.filter _)
    (nodup_mnemonicRows.map fun k k' h => hm k k' (BitVec.eq_of_toNat_eq h))).2 fun n => ?_
  simp only [List.mem_filter, List.mem_range, List.mem_map]
  constructor
  · rintro ⟨hn, hop⟩
    obtain ⟨k, hk⟩ := (isOpcode_iff m hn).1 hop
    exact ⟨k, mem_mnemonicRows k, hk⟩
  · rintro ⟨k, -, rfl⟩
    exact ⟨(m k).isLt, (isOpcode_iff m (m k).isLt).2 ⟨k, rfl⟩⟩

/-- Settles O4: of the 256 byte values 13 are opcodes, so the others number 243. -/
theorem twoHundredFortyThreeBytesAreNoOpcode : Obligations.TwoHundredFortyThreeBytesAreNoOpcode := by
  refine ⟨fun m hm => ?_, distinct_standardOpcodes, by decide, by decide⟩
  have hsplit := List.length_eq_length_filter_add (l := List.range 256) (isOpcode m)
  have hopcodes : ((List.range 256).filter (isOpcode m)).length = 13 := (opcodes_perm hm).length_eq
  rw [hopcodes, List.length_range] at hsplit
  simp only [isOpcode, Option.not_isSome] at hsplit
  omega

end Sys2Proof.Machine

/-! SUPPORT and PROOF. The meaning of each instruction by the registers it names, and of an ill-formed one
(`40_execution_cycle.md` R65, R66). -/

namespace Sys2Proof.Machine

/-! ### Ill-formed instructions -/

theorem le_seven_iff_exists_regByte (b : Byte) : b.toNat ≤ 7 ↔ ∃ r : Reg, b = regByte r := by
  constructor
  · intro h
    cases hr : regOf b with
    | some r => exact ⟨r, (regOf_eq_some b r).1 hr⟩
    | none => exact absurd ((regOf_eq_none b).1 hr) (by omega)
  · rintro ⟨r, rfl⟩
    by_contra h
    have := (regOf_eq_none (regByte r)).2 (by omega)
    simp at this

/-- The first register operand byte above 7, if there is one. -/
abbrev firstBadOperand (bytes : List Byte) : Option Byte := bytes.find? fun x => decide (7 < x.toNat)

theorem withReg_of_bad {a b : Byte} {s : State} {k : Reg → Result} (h : firstBadOperand [a] = some b) :
    withReg a s k = .next (raise (invalidRegister b) s) := by
  obtain rfl : b = a := List.mem_singleton.1 (List.mem_of_find?_eq_some h)
  have hbad : 7 < b.toNat := by simpa using List.find?_some h
  obtain ⟨r, hr, -⟩ | ⟨-, hraise⟩ := withReg_cases b s k
  · exact absurd ((le_seven_iff_exists_regByte b).2 ⟨r, hr⟩) (not_le.2 hbad)
  · exact hraise

/-- Of two operands the second is looked at only when the first names a register. -/
theorem withRegs_of_bad {a b bad : Byte} {s : State} {k : Reg → Reg → Result}
    (h : firstBadOperand [a, b] = some bad) : withRegs a b s k = .next (raise (invalidRegister bad) s) := by
  obtain ⟨r, hr, hk⟩ | ⟨hbad, -⟩ := withReg_cases a s fun ra => withReg b s (k ra)
  · have hgood := (le_seven_iff_exists_regByte a).2 ⟨r, hr⟩
    exact hk.trans (withReg_of_bad (by simpa [List.find?_cons, not_lt.2 hgood] using h))
  · have hbad : 7 < a.toNat := hbad
    exact withReg_of_bad (by simpa [List.find?_cons, hbad] using h)

/-- Settles O45: every instruction with register operands checks them, in their order, before anything else. -/
theorem badRegisterOperandRaisesInvalidRegister : Obligations.BadRegisterOperandRaisesInvalidRegister := by
  intro i b s h
  cases i with
  | hlt | ret => cases h
  | mul _ _ | add _ _ | cmp _ _ => exact withRegs_of_bad h
  | ldi _ _ | prn _ | push _ | pop _ | call _ | jmp _ | jeq _ | jne _ => exact withReg_of_bad h

/-! ### Well-formed instructions -/

/-- The instructions whose register operands name registers, LDI's immediate being any byte. -/
inductive NamesRegs : Instr → Prop
  | hlt : NamesRegs .hlt
  | ldi (a : Reg) (imm : Byte) : NamesRegs (.ldi (regByte a) imm)
  | prn (a : Reg) : NamesRegs (.prn (regByte a))
  | mul (a b : Reg) : NamesRegs (.mul (regByte a) (regByte b))
  | add (a b : Reg) : NamesRegs (.add (regByte a) (regByte b))
  | cmp (a b : Reg) : NamesRegs (.cmp (regByte a) (regByte b))
  | push (a : Reg) : NamesRegs (.push (regByte a))
  | pop (a : Reg) : NamesRegs (.pop (regByte a))
  | call (a : Reg) : NamesRegs (.call (regByte a))
  | ret : NamesRegs .ret
  | jmp (a : Reg) : NamesRegs (.jmp (regByte a))
  | jeq (a : Reg) : NamesRegs (.jeq (regByte a))
  | jne (a : Reg) : NamesRegs (.jne (regByte a))

/-- A register operand of a well-formed instruction names a register. -/
theorem exists_regByte_of_wf {i : Instr} {a : Byte} (hwf : i.wf = true) (ha : a ∈ i.regOperands) :
    ∃ r : Reg, a = regByte r :=
  (le_seven_iff_exists_regByte a).1 ((wf_iff i).1 hwf a ha)

theorem namesRegs_of_wf {i : Instr} (h : i.wf = true) : NamesRegs i := by
  have hops := fun a => exists_regByte_of_wf (a := a) h
  cases i with
  | hlt => exact .hlt
  | ret => exact .ret
  | ldi a imm => obtain ⟨r, rfl⟩ := hops a (.head _); exact .ldi r imm
  | prn a => obtain ⟨r, rfl⟩ := hops a (.head _); exact .prn r
  | mul a b =>
    obtain ⟨ra, rfl⟩ := hops a (.head _)
    obtain ⟨rb, rfl⟩ := hops b (.tail _ (.head _))
    exact .mul ra rb
  | add a b =>
    obtain ⟨ra, rfl⟩ := hops a (.head _)
    obtain ⟨rb, rfl⟩ := hops b (.tail _ (.head _))
    exact .add ra rb
  | cmp a b =>
    obtain ⟨ra, rfl⟩ := hops a (.head _)
    obtain ⟨rb, rfl⟩ := hops b (.tail _ (.head _))
    exact .cmp ra rb
  | push a => obtain ⟨r, rfl⟩ := hops a (.head _); exact .push r
  | pop a => obtain ⟨r, rfl⟩ := hops a (.head _); exact .pop r
  | call a => obtain ⟨r, rfl⟩ := hops a (.head _); exact .call r
  | jmp a => obtain ⟨r, rfl⟩ := hops a (.head _); exact .jmp r
  | jeq a => obtain ⟨r, rfl⟩ := hops a (.head _); exact .jeq r
  | jne a => obtain ⟨r, rfl⟩ := hops a (.head _); exact .jne r

/-- An instruction is well formed or has a first bad operand. -/
theorem wf_or_bad (i : Instr) : i.wf = true ∨ ∃ b, firstBadOperand i.regOperands = some b := by
  cases h : firstBadOperand i.regOperands with
  | none => exact .inl ((wf_iff i).2 fun b hb => by simpa using List.find?_eq_none.1 h b hb)
  | some b => exact .inr ⟨b, rfl⟩

/-- What an executed instruction was: ill formed, with the raise as its whole effect, or well formed. -/
theorem exec_cases {i : Instr} {s t : State} (h : exec i s = .next t) :
    (∃ b, firstBadOperand i.regOperands = some b ∧ t = raise (invalidRegister b) s) ∨ i.wf = true := by
  obtain hwf | ⟨b, hb⟩ := wf_or_bad i
  · exact .inr hwf
  · cases (badRegisterOperandRaisesInvalidRegister i b s hb).symm.trans h
    exact .inl ⟨b, hb, rfl⟩

/-! ### The state each one leaves -/

@[simp] theorem exec_ldi_regByte (a : Reg) (imm : Byte) (s : State) :
    exec (.ldi (regByte a) imm) s = .next ((s.setReg a imm).advance 3) :=
  withReg_regByte a s _

@[simp] theorem exec_prn_regByte (a : Reg) (s : State) :
    exec (.prn (regByte a)) s = .next ((s.emit (s.reg a)).advance 2) :=
  withReg_regByte a s _

theorem exec_mul_eq (a b : Reg) (s : State) :
    exec (.mul (regByte a) (regByte b)) s = .next ((s.setReg a (s.reg a * s.reg b)).advance 3) :=
  (exec_mul_regByte a b s).trans (aluStep_mul a b s)

theorem exec_add_eq (a b : Reg) (s : State) :
    exec (.add (regByte a) (regByte b)) s = .next ((s.setReg a (s.reg a + s.reg b)).advance 3) :=
  (exec_add_regByte a b s).trans (aluStep_add a b s)

theorem exec_cmp_eq (a b : Reg) (s : State) :
    exec (.cmp (regByte a) (regByte b)) s = .next ((s.setFl (flagsOfCompare (s.reg a) (s.reg b))).advance 3) :=
  (exec_cmp_regByte a b s).trans (aluStep_cmp a b s)

/-- The state PUSH leaves: the register is read after the decrement (`43_stack.md` R99). -/
@[simp] theorem exec_push_regByte (a : Reg) (s : State) :
    exec (.push (regByte a)) s = .next ((pushed (fun u => zext9 (u.reg a)) s).advance 2) :=
  (withReg_regByte a s _).trans (pushThen_eq _ s _)

/-- The state POP leaves: the increment comes after the register write (`43_stack.md` R97). -/
@[simp] theorem exec_pop_regByte (a : Reg) (s : State) :
    exec (.pop (regByte a)) s = .next ((spInc (s.setReg a (s.mem.read s.sp.toNat))).advance 2) := by
  refine (withReg_regByte a s _).trans ?_
  rw [popThen_eq, popAddress_toNat]

/-- The state CALL leaves: the target is read after the push (`44_control.md` R101). -/
@[simp] theorem exec_call_regByte (a : Reg) (s : State) :
    exec (.call (regByte a)) s =
      .next ((pushed (fun _ => returnAddress s) s).jumpTo ((spDec s).reg a)) :=
  (withReg_regByte a s _).trans (pushThen_eq _ s _)

@[simp] theorem exec_ret (s : State) : exec .ret s = .next ((spInc s).jumpTo (s.mem.read s.sp.toNat)) := by
  refine (popThen_eq s _).trans ?_
  rw [popAddress_toNat]

@[simp] theorem exec_jmp_regByte (a : Reg) (s : State) : exec (.jmp (regByte a)) s = .next (s.jumpTo (s.reg a)) :=
  withReg_regByte a s _

@[simp] theorem exec_jeq_regByte (a : Reg) (s : State) :
    exec (.jeq (regByte a)) s = .next (if s.equalFlag then s.jumpTo (s.reg a) else s.advance 2) :=
  withReg_regByte a s _

@[simp] theorem exec_jne_regByte (a : Reg) (s : State) :
    exec (.jne (regByte a)) s = .next (if s.equalFlag then s.advance 2 else s.jumpTo (s.reg a)) :=
  withReg_regByte a s _

/-- Settles O46: HLT writes RUN alone, and every other well-formed instruction completes with RUN and ERR kept. -/
theorem wellFormedInstructionsComplete : Obligations.WellFormedInstructionsComplete := by
  intro i s hwf
  by_cases hi : i = .hlt
  · subst hi
    exact ⟨_, exec_hlt s, rfl, rfl⟩
  · obtain ⟨t, ht, hrun, herr⟩ := exec_completes_of_wf s hwf hi
    exact ⟨t, ht, by rw [hrun, if_neg hi], herr⟩

end Sys2Proof.Machine

/-! SUPPORT and PROOF. Everything a fetch can answer, under both windows, and the step by it
(`40_execution_cycle.md` R61 to R64, `60_exceptions.md` section 2). -/

namespace Sys2Proof.Machine

/-! ### Assembling -/

theorem arity_le_two (k : Mnemonic) : k.arity ≤ 2 := by
  cases k <;> decide

/-- An operand byte the instruction does not have is not looked at. -/
theorem assemble_congr {k : Mnemonic} {a b a' b' : Byte} (h : [a, b].take k.arity = [a', b'].take k.arity) :
    assemble k a b = assemble k a' b' := by
  cases k <;> simp_all [assemble, Mnemonic.arity]

theorem eq_assemble_of_operandBytes {i : Instr} {a b : Byte} (h : i.operandBytes = [a, b].take i.mnemonic.arity) :
    i = assemble i.mnemonic a b := by
  cases i <;> simp_all [assemble, Instr.mnemonic, Instr.operandBytes, Mnemonic.arity]

/-- The instruction of a mnemonic whose operand bytes are the two after PC. -/
def instrAtPc (k : Mnemonic) (s : State) : Instr :=
  assemble k (s.mem.read (s.pc.toNat + 1)) (s.mem.read (s.pc.toNat + 2))

@[simp] theorem mnemonic_instrAtPc (k : Mnemonic) (s : State) : (instrAtPc k s).mnemonic = k :=
  mnemonic_assemble k _ _

/-! ### The reads of a fetch -/

/-- A read past PC that reaches address 256 is out of range there. -/
theorem memRead_past_end {s : State} {a : Addr} (h : s.pc.toNat + a.toNat = 256) :
    memRead (s.pc + a) s = .error { kind := .outOfRangeAccess, info := 256 } := by
  have hsum : s.pc + a = 256 := BitVec.eq_of_toNat_eq (by rw [BitVec.toNat_add, h]; rfl)
  rw [hsum, memRead_out _ _ (by decide)]

theorem readOperand_pc_add {s : State} {a : Addr} {has : Bool}
    (h : has = true → s.pc.toNat + a.toNat < memSize) :
    readOperand has (s.pc + a) s = .ok (if has then s.mem.read (s.pc.toNat + a.toNat) else 0) := by
  cases has with
  | false => rfl
  | true => exact memRead_pc_add (h rfl)

theorem decodeOpcode_of_known {m : OpcodeMap} {ir : Byte} {k : Mnemonic} (h : lookupOpcode m ir = some k) :
    decodeOpcode m ir = .ok k := by
  simp [decodeOpcode, h]

/-! ### The fetch, case by case -/

section
variable {c : Config} {s : State}

theorem fetch_of_pc_out (h : 256 ≤ s.pc.toNat) :
    fetch c s = .error { kind := .outOfRangeAccess, info := s.pc } := by
  simp [fetch, memRead_out s.pc s (not_lt.2 h), bind, Except.bind]

/-- Under `always2` one of the three reads reaches address 256 when PC is 254 to 256. -/
theorem fetch_always2_of_top (hw : c.window = .always2) (h : 254 ≤ s.pc.toNat) (h' : s.pc.toNat ≤ 256) :
    fetch c s = .error { kind := .outOfRangeAccess, info := 256 } := by
  obtain hpc | hpc | hpc : s.pc.toNat = 256 ∨ s.pc.toNat = 255 ∨ s.pc.toNat = 254 := by omega
  · rw [fetch_of_pc_out hpc.ge, BitVec.eq_of_toNat_eq (x := s.pc) (y := 256) hpc]
  · have hir : memRead s.pc s = .ok _ := memRead_in s.pc s (by simp [hpc, memSize])
    have hopA := memRead_past_end (s := s) (a := 1#9) (by simp [hpc])
    simp [fetch, hw, hir, hopA, bind, Except.bind]
  · have hir : memRead s.pc s = .ok _ := memRead_in s.pc s (by simp [hpc, memSize])
    have hopA := memRead_pc_add (s := s) (a := 1#9) (by simp [hpc, memSize])
    have hopB := memRead_past_end (s := s) (a := 2#9) (by simp [hpc])
    simp [fetch, hw, hir, hopA, hopB, bind, Except.bind]

variable {k : Mnemonic} (hk : lookupOpcode c.opcodes (s.mem.read s.pc.toNat) = some k)
include hk

/-- Under `arity` an instruction that reaches past address 255 is out of range at 256, its first missing byte. -/
theorem fetch_arity_of_short (hw : c.window = .arity) (hpc : s.pc.toNat ≤ 255)
    (hshort : 256 ≤ s.pc.toNat + k.arity) : fetch c s = .error { kind := .outOfRangeAccess, info := 256 } := by
  have hir : memRead s.pc s = .ok _ := memRead_in s.pc s (Nat.lt_succ_of_le hpc)
  have hdecode := decodeOpcode_of_known hk
  have harity := arity_le_two k
  obtain hpc | hpc : s.pc.toNat = 255 ∨ s.pc.toNat = 254 := by omega
  · have hopA := memRead_past_end (s := s) (a := 1#9) (by simp [hpc])
    have hhas : 1 ≤ k.arity := by omega
    simp [fetch, hw, hir, hdecode, readOperand, hhas, hopA, bind, Except.bind]
  · have hopA := memRead_pc_add (s := s) (a := 1#9) (by simp [hpc, memSize])
    have hopB := memRead_past_end (s := s) (a := 2#9) (by simp [hpc])
    have hhas : k.arity = 2 := by omega
    simp [fetch, hw, hir, hdecode, readOperand, hhas, hopA, hopB, bind, Except.bind]

/-- An instruction whose bytes are all in memory is fetched, by `arity` everywhere and by `always2` up to 253. -/
theorem fetch_of_fits (hpc : s.pc.toNat ≤ 253 ∨ c.window = .arity) (hfits : s.pc.toNat + k.arity < memSize) :
    fetch c s = .ok (instrAtPc k s) := by
  have hir : memRead s.pc s = .ok _ := memRead_in s.pc s (Nat.lt_of_le_of_lt (Nat.le_add_right ..) hfits)
  have hdecode := decodeOpcode_of_known hk
  cases hw : c.window with
  | always2 =>
    have htop : s.pc.toNat ≤ 253 := by simpa [hw] using hpc
    have hopA := memRead_pc_add (s := s) (a := 1#9) (by simp [memSize]; omega)
    have hopB := memRead_pc_add (s := s) (a := 2#9) (by simp [memSize]; omega)
    simp [fetch, hw, hir, hdecode, hopA, hopB, bind, Except.bind, pure, Except.pure, instrAtPc]
  | arity =>
    have hopA := readOperand_pc_add (s := s) (a := 1) (has := decide (1 ≤ k.arity)) (by simp; omega)
    have hopB := readOperand_pc_add (s := s) (a := 2) (has := decide (k.arity = 2)) (by simp; omega)
    simp only [fetch, hw, hir, hdecode, hopA, hopB, bind, Except.bind, pure, Except.pure, instrAtPc]
    refine congrArg Except.ok (assemble_congr ?_)
    have harity := arity_le_two k
    interval_cases k.arity <;> rfl

end

/-- Everything a fetch can answer. -/
theorem fetch_cases (c : Config) (s : State) :
    (256 ≤ s.pc.toNat ∧ fetch c s = .error { kind := .outOfRangeAccess, info := s.pc }) ∨
    (s.pc.toNat ≤ 255 ∧ fetch c s = .error { kind := .outOfRangeAccess, info := 256 }) ∨
    (s.pc.toNat ≤ 255 ∧ lookupOpcode c.opcodes (s.mem.read s.pc.toNat) = none ∧
      fetch c s = .error { kind := .unknownOpcode, info := zext9 (s.mem.read s.pc.toNat) }) ∨
    (∃ k, lookupOpcode c.opcodes (s.mem.read s.pc.toNat) = some k ∧ s.pc.toNat + k.arity < memSize ∧
      fetch c s = .ok (instrAtPc k s)) := by
  by_cases hin : 256 ≤ s.pc.toNat
  · exact .inl ⟨hin, fetch_of_pc_out hin⟩
  have hin : s.pc.toNat ≤ 255 := by omega
  by_cases hpc : s.pc.toNat ≤ 253 ∨ c.window = .arity
  · cases hk : lookupOpcode c.opcodes (s.mem.read s.pc.toNat) with
    | none =>
      have hunknown := (lookupOpcode_eq_none_iff _ _).1 hk
      exact .inr (.inr (.inl ⟨hin, rfl, fetch_of_unknown (hpc.imp_right fun hw => ⟨hw, hin⟩) hunknown⟩))
    | some k =>
      by_cases hfits : s.pc.toNat + k.arity < memSize
      · exact .inr (.inr (.inr ⟨k, rfl, hfits, fetch_of_fits hk hpc hfits⟩))
      · have harity := arity_le_two k
        have hw : c.window = .arity := hpc.resolve_left fun h => hfits (by simp only [memSize]; omega)
        exact .inr (.inl ⟨hin, fetch_arity_of_short hk hw hin (not_lt.1 hfits)⟩)
  · obtain ⟨hlow, hw⟩ := not_or.1 hpc
    have hw : c.window = .always2 := by cases h : c.window <;> simp_all
    exact .inr (.inl ⟨hin, fetch_always2_of_top hw (not_le.1 hlow) (hin.trans (Nat.le_succ _))⟩)

/-- What a fetched instruction is: the lookup's mnemonic with the bytes after PC, all of them in memory. -/
theorem fetch_ok {c : Config} {s : State} {i : Instr} (h : fetch c s = .ok i) :
    ∃ k, lookupOpcode c.opcodes (s.mem.read s.pc.toNat) = some k ∧ s.pc.toNat + k.arity < memSize ∧
      i = instrAtPc k s := by
  obtain ⟨-, he⟩ | ⟨-, he⟩ | ⟨-, -, he⟩ | ⟨k, hk, hfits, hi⟩ := fetch_cases c s
  · cases he.symm.trans h
  · cases he.symm.trans h
  · cases he.symm.trans h
  · cases hi.symm.trans h
    exact ⟨k, hk, hfits, rfl⟩

/-- The fetch reads PC and memory and nothing else. -/
theorem fetch_congr (c : Config) {s t : State} (hpc : t.pc = s.pc) (hmem : t.mem = s.mem) : fetch c t = fetch c s := by
  have hread : ∀ a, memRead a t = memRead a s := fun a => by simp [memRead, hmem]
  simp [fetch, readOperand, hpc, hread]

/-! ### The order of the fault checks -/

section
variable {c : Config} {s : State} (hrun : s.run = .running)
include hrun

theorem stepWith_of_unknown (hpc : s.pc.toNat ≤ 253 ∨ (c.window = .arity ∧ s.pc.toNat ≤ 255))
    (hk : lookupOpcode c.opcodes (s.mem.read s.pc.toNat) = none) :
    stepWith c s = .next (raise { kind := .unknownOpcode, info := zext9 (s.mem.read s.pc.toNat) } s) :=
  stepWith_of_fetch_error hrun (fetch_of_unknown hpc ((lookupOpcode_eq_none_iff _ _).1 hk))

variable {k : Mnemonic} (hk : lookupOpcode c.opcodes (s.mem.read s.pc.toNat) = some k)
include hk

theorem stepWith_of_fits (hpc : s.pc.toNat ≤ 253 ∨ c.window = .arity) (hfits : s.pc.toNat + k.arity < memSize) :
    stepWith c s = exec (instrAtPc k s) s :=
  stepWith_of_fetch_ok hrun (fetch_of_fits hk hpc hfits)

theorem stepWith_of_bad {b : Byte} (hpc : s.pc.toNat ≤ 253 ∨ c.window = .arity)
    (hfits : s.pc.toNat + k.arity < memSize) (hbad : firstBadOperand (instrAtPc k s).regOperands = some b) :
    stepWith c s = .next (raise (invalidRegister b) s) :=
  (stepWith_of_fits hrun hk hpc hfits).trans (badRegisterOperandRaisesInvalidRegister _ b s hbad)

end

/-- Settles O14: the read of the opcode byte, its lookup, the reads of the operands it has, and their check. -/
theorem faultPriorityUnderArity : Obligations.FaultPriorityUnderArity := by
  intro m s hrun
  refine ⟨fun hpc => stepWith_of_fetch_error hrun (fetch_of_pc_out hpc), ?_⟩
  rintro hpc ir rfl
  refine ⟨fun hk => stepWith_of_unknown hrun (.inr ⟨rfl, hpc⟩) hk, fun k hk => ⟨fun hshort => ?_, ?_⟩⟩
  · exact stepWith_of_fetch_error hrun (fetch_arity_of_short hk rfl hpc hshort)
  · rintro hfits i rfl b hbad
    exact stepWith_of_bad hrun hk (.inr rfl) (Nat.lt_succ_of_le hfits) hbad

/-- Settles O15: all three reads, then the lookup of the opcode byte, and then the check of the operands. -/
theorem faultPriorityUnderAlways2 : Obligations.FaultPriorityUnderAlways2 := by
  intro m s hrun
  refine ⟨fun hpc => stepWith_of_fetch_error hrun (fetch_of_pc_out hpc.le),
    fun hlow hhigh => stepWith_of_fetch_error hrun (fetch_always2_of_top rfl hlow hhigh), ?_⟩
  rintro hpc ir rfl
  refine ⟨fun hk => stepWith_of_unknown hrun (.inl hpc) hk, ?_⟩
  rintro k hk i rfl b hbad
  have harity := arity_le_two k
  exact stepWith_of_bad hrun hk (.inl hpc) (by simp only [memSize]; omega) hbad

/-- The two windows fetch alike where three bytes are in memory, and where not even the first is. -/
theorem fetch_windows_eq (m : OpcodeMap) {s : State} (hpc : s.pc.toNat ≤ 253 ∨ 256 ≤ s.pc.toNat) :
    fetch { window := .arity, opcodes := m } s = fetch { window := .always2, opcodes := m } s := by
  obtain hpc | hpc := hpc
  · cases hk : lookupOpcode m (s.mem.read s.pc.toNat) with
    | none =>
      have hunknown := (lookupOpcode_eq_none_iff _ _).1 hk
      exact (fetch_of_unknown (.inl hpc) hunknown).trans (fetch_of_unknown (.inl hpc) hunknown).symm
    | some k =>
      have harity := arity_le_two k
      have hfits : s.pc.toNat + k.arity < memSize := by simp only [memSize]; omega
      exact (fetch_of_fits hk (.inl hpc) hfits).trans (fetch_of_fits hk (.inl hpc) hfits).symm
  · exact (fetch_of_pc_out hpc).trans (fetch_of_pc_out hpc).symm

/-- Settles O16: away from 254 and 255 the fetches agree; there `always2` always faults, so no step of it is Safe. -/
theorem fetchWindowsDifferOnlyAtTheTop : Obligations.FetchWindowsDifferOnlyAtTheTop := by
  intro m s hrun
  have hsame : s.pc.toNat ≤ 253 ∨ 256 ≤ s.pc.toNat →
      stepWith { window := .arity, opcodes := m } s = stepWith { window := .always2, opcodes := m } s := fun hpc => by
    simp only [stepWith, fetch_windows_eq m hpc]
  have htop : 254 ≤ s.pc.toNat → s.pc.toNat ≤ 256 →
      stepWith { window := .always2, opcodes := m } s = .next (raise { kind := .outOfRangeAccess, info := 256 } s) :=
    fun hlow hhigh => stepWith_of_fetch_error hrun (fetch_always2_of_top rfl hlow hhigh)
  refine ⟨hsame, fun k hlow hfits hk => ⟨?_, htop hlow (by omega)⟩, fun t ht hsafe => ?_⟩
  · rw [stepWith_of_fits hrun hk (.inr rfl) (Nat.lt_succ_of_le hfits), instrAtPc]
    have harity : k.arity ≤ 1 := by omega
    exact congrArg (exec · s) (assemble_congr (by interval_cases k.arity <;> rfl))
  · by_cases hpc : s.pc.toNat ≤ 253 ∨ 256 ≤ s.pc.toNat
    · exact (hsame hpc).trans ht
    · cases (htop (by omega) (by omega)).symm.trans ht
      exact absurd (raise_run _ s) hsafe

end Sys2Proof.Machine

/-! SUPPORT and PROOF. The decoder on the bytes at PC and the step of the core agree (`40_execution_cycle.md`
section 2). -/

namespace Sys2Proof.Machine

/-! ### The bytes at PC -/

theorem bytesAtPc_of_out {s : State} (h : 256 ≤ s.pc.toNat) : bytesAtPc s = [] := by
  have hA : ¬ s.pc.toNat + 1 < 256 := by omega
  have hB : ¬ s.pc.toNat + 2 < 256 := by omega
  simp [bytesAtPc, memSize, not_lt.2 h, hA, hB]

/-- Up to address 255 the bytes at PC are the one there and as many of the next two as are in memory. -/
theorem bytesAtPc_of_in {s : State} (h : s.pc.toNat ≤ 255) :
    bytesAtPc s = s.mem.read s.pc.toNat ::
      [s.mem.read (s.pc.toNat + 1), s.mem.read (s.pc.toNat + 2)].take (255 - s.pc.toNat) := by
  have hin : s.pc.toNat < 256 := by omega
  obtain hpc | hpc | hpc : s.pc.toNat = 255 ∨ s.pc.toNat = 254 ∨ s.pc.toNat ≤ 253 := by omega
  · simp [bytesAtPc, memSize, hpc]
  · simp [bytesAtPc, memSize, hpc]
  · have hA : s.pc.toNat + 1 < 256 := by omega
    have hB : s.pc.toNat + 2 < 256 := by omega
    rw [List.take_of_length_le (by simp; omega)]
    simp [bytesAtPc, memSize, hin, hA, hB]

/-! ### The decoder there -/

theorem exists_operandBytes_eq_take {k : Mnemonic} {xs : List Byte} (h : k.arity ≤ xs.length) :
    ∃ i : Instr, i.mnemonic = k ∧ i.operandBytes = xs.take k.arity := by
  refine ⟨assemble k (xs.getD 0 0) (xs.getD 1 0), mnemonic_assemble k _ _, ?_⟩
  have harity := arity_le_two k
  rw [operandBytes_assemble]
  match xs with
  | [] => simp_all
  | [a] => simp only [List.length_singleton] at h; interval_cases k.arity <;> rfl
  | a :: b :: _ => interval_cases k.arity <;> rfl

/-- The decoder says why the bytes after an opcode byte are no instruction. -/
theorem decodeWith_cons_error {m : OpcodeMap} {ir : Byte} {xs : List Byte} {e : DecodeError}
    (h : decodeWith m (ir :: xs) = .error e) :
    (lookupOpcode m ir = none ∧ e = .unknownOpcode ir) ∨
    (∃ k, lookupOpcode m ir = some k ∧ xs.length < k.arity ∧ e = .truncated) := by
  cases hk : lookupOpcode m ir with
  | none =>
    cases (decodeWith_of_unknown hk xs).symm.trans h
    exact .inl ⟨rfl, rfl⟩
  | some k =>
    by_cases hshort : xs.length < k.arity
    · cases (decodeWith_of_short hk hshort).symm.trans h
      exact .inr ⟨k, rfl, hshort, rfl⟩
    · obtain ⟨i, rfl, hbytes⟩ := exists_operandBytes_eq_take (not_lt.1 hshort)
      have hok := decodeWith_of_operandBytes hk (xs.drop i.mnemonic.arity)
      rw [hbytes, List.take_append_drop] at hok
      cases hok.symm.trans h

/-- What the decoder reads at PC is the instruction whose bytes a fetch reads there. -/
theorem decodeWith_bytesAtPc_ok {m : OpcodeMap} {s : State} {i : Instr} {rest : List Byte}
    (h : decodeWith m (bytesAtPc s) = .ok (i, rest)) :
    lookupOpcode m (s.mem.read s.pc.toNat) = some i.mnemonic ∧ s.pc.toNat + i.mnemonic.arity < memSize ∧
      i = instrAtPc i.mnemonic s := by
  by_cases hpc : 256 ≤ s.pc.toNat
  · rw [bytesAtPc_of_out hpc] at h
    cases h
  have hpc : s.pc.toNat ≤ 255 := by omega
  rw [bytesAtPc_of_in hpc] at h
  obtain ⟨hlookup, hbytes⟩ := decodeWith_cons_ok h
  have hlen := congrArg List.length hbytes
  simp only [List.length_append, List.length_take, length_operandBytes] at hlen
  refine ⟨hlookup, by simp only [memSize]; omega, eq_assemble_of_operandBytes ?_⟩
  have hfirst := congrArg (List.take i.mnemonic.arity) hbytes
  rwa [List.take_left' (length_operandBytes i), List.take_take, Nat.min_eq_left (by omega), eq_comm] at hfirst

/-- Settles O6: the decoder and the fetch read the same mnemonic and the same operand bytes. -/
theorem stepExecutesTheDecodedInstruction : Obligations.StepExecutesTheDecodedInstruction := by
  refine ⟨fun s i rest hrun h => ?_, fun c s i rest hrun hpc h => ?_⟩
  · obtain ⟨hlookup, hfits, hi⟩ := decodeWith_bytesAtPc_ok h
    rw [hi]
    exact stepWith_of_fits hrun hlookup (.inr rfl) hfits
  · obtain ⟨hlookup, hfits, hi⟩ := decodeWith_bytesAtPc_ok h
    rw [hi]
    exact stepWith_of_fits hrun hlookup (.inl hpc) hfits

/-- Why the bytes at PC do not decode: memory has ended, or the byte at PC is unknown, or memory ends among the operand
bytes. -/
theorem decodeWith_bytesAtPc_error {m : OpcodeMap} {s : State} {e : DecodeError}
    (h : decodeWith m (bytesAtPc s) = .error e) :
    (256 ≤ s.pc.toNat ∧ e = .truncated) ∨
    (s.pc.toNat ≤ 255 ∧ lookupOpcode m (s.mem.read s.pc.toNat) = none ∧
      e = .unknownOpcode (s.mem.read s.pc.toNat)) ∨
    (s.pc.toNat ≤ 255 ∧ ∃ k, lookupOpcode m (s.mem.read s.pc.toNat) = some k ∧ 256 ≤ s.pc.toNat + k.arity ∧
      e = .truncated) := by
  by_cases hpc : 256 ≤ s.pc.toNat
  · rw [bytesAtPc_of_out hpc] at h
    cases h
    exact .inl ⟨hpc, rfl⟩
  have hpc : s.pc.toNat ≤ 255 := by omega
  rw [bytesAtPc_of_in hpc] at h
  obtain ⟨hk, he⟩ | ⟨k, hk, hshort, he⟩ := decodeWith_cons_error h
  · exact .inr (.inl ⟨hpc, hk, he⟩)
  · have harity := arity_le_two k
    simp only [List.length_take, List.length_cons, List.length_nil] at hshort
    exact .inr (.inr ⟨hpc, k, hk, by omega, he⟩)

/-- Settles O7: each reason the decoder has for a refusal is a fault of the fetch under `arity`. -/
theorem stepTakesTheDecodersRefusalAsAFault : Obligations.StepTakesTheDecodersRefusalAsAFault := by
  refine fun s hrun hpc => ⟨fun ir h => ?_, fun h => ?_⟩
  · obtain ⟨-, he⟩ | ⟨hin, hk, he⟩ | ⟨-, k, -, -, he⟩ := decodeWith_bytesAtPc_error h
    · cases he
    · cases he
      exact stepWith_of_unknown hrun (.inr ⟨rfl, hin⟩) hk
    · cases he
  · obtain ⟨hout, -⟩ | ⟨-, -, he⟩ | ⟨hin, k, hk, hshort, -⟩ := decodeWith_bytesAtPc_error h
    · have htop : s.pc = 256 := BitVec.eq_of_toNat_eq (le_antisymm hpc hout)
      exact stepWith_of_fetch_error hrun (htop ▸ fetch_of_pc_out hout)
    · cases he
    · exact stepWith_of_fetch_error hrun (fetch_arity_of_short hk rfl hin hshort)

end Sys2Proof.Machine

/-! SUPPORT and PROOF. The ends of a step, what it does to memory, PC, FL and OUT, and the invariant of the core
(`10_state.md` sections 3 and 4, `60_exceptions.md` sections 1 and 2). -/

namespace Sys2Proof.Machine

/-! ### The ends of a step -/

/-- The three ends of a step: the fetch's fault, the operand check's fault, a well-formed instruction completed. -/
theorem stepWith_ends {c : Config} {s t : State} (h : stepWith c s = .next t) :
    (∃ e, fetch c s = .error e ∧ t = raise e s) ∨
    (∃ i b, fetch c s = .ok i ∧ firstBadOperand i.regOperands = some b ∧ t = raise (invalidRegister b) s) ∨
    (∃ i, fetch c s = .ok i ∧ i.wf = true ∧ exec i s = .next t) := by
  obtain ⟨-, hfault | ⟨i, hfetch, hexec⟩⟩ := stepWith_cases c s t h
  · exact .inl hfault
  · obtain ⟨b, hb, ht⟩ | hwf := exec_cases hexec
    · exact .inr (.inl ⟨i, b, hfetch, hb, ht⟩)
    · exact .inr (.inr ⟨i, hfetch, hwf, hexec⟩)

/-- A step raises, its state otherwise untouched, or completes a well-formed instruction. -/
theorem stepWith_raises_or_completes {c : Config} {s t : State} (h : stepWith c s = .next t) :
    (∃ e, t = raise e s) ∨ (∃ i, fetch c s = .ok i ∧ i.wf = true ∧ exec i s = .next t) := by
  obtain ⟨e, -, rfl⟩ | ⟨i, b, -, -, rfl⟩ | hdone := stepWith_ends h
  · exact .inl ⟨e, rfl⟩
  · exact .inl ⟨_, rfl⟩
  · exact .inr hdone

/-- Settles O13: a step that leaves RUN at Error is a raise. -/
theorem faultsArePrecise : Obligations.FaultsArePrecise := by
  intro c s t h herr
  obtain ⟨-, hrun⟩ | ⟨-, hrun | ⟨e, rfl⟩⟩ := stepWith_run_cases h
  · simp [hrun] at herr
  · simp [hrun] at herr
  · exact ⟨rfl, rfl, rfl, rfl, rfl, rfl⟩

/-! ### One field at a time -/

section
variable {i : Instr} {s t : State} (hwf : i.wf = true) (h : exec i s = .next t)
include hwf h

/-- Only PUSH and CALL write memory, and what they write is a push. -/
theorem exec_mem_cases :
    t.mem = s.mem ∨ (∃ a, i = .push a ∨ i = .call a) ∧ ∃ value, t.mem = (pushed value s).mem := by
  cases namesRegs_of_wf hwf with
  | push a =>
    cases (exec_push_regByte a s).symm.trans h
    exact .inr ⟨⟨_, .inl rfl⟩, fun u => zext9 (u.reg a), rfl⟩
  | call a =>
    cases (exec_call_regByte a s).symm.trans h
    exact .inr ⟨⟨_, .inr rfl⟩, fun _ => returnAddress s, rfl⟩
  | hlt | ldi a imm | prn a | mul a b | add a b | cmp a b | pop a | ret | jmp a | jeq a | jne a =>
    simp only [exec_hlt, exec_ldi_regByte, exec_prn_regByte, exec_mul_eq, exec_add_eq, exec_cmp_eq, exec_pop_regByte,
      exec_ret, exec_jmp_regByte, exec_jeq_regByte, exec_jne_regByte, Host.Outcome.next.injEq] at h
    subst h
    exact .inl (by simp [apply_ite State.mem])

/-- PC stays at a HLT, moves on by the instruction's length, or becomes a byte. -/
theorem exec_pc_cases :
    t.pc = s.pc ∨ t.pc = s.pc + BitVec.ofNat 9 i.mnemonic.length ∨ ∃ b, t.pc = zext9 b := by
  cases namesRegs_of_wf hwf with
  | hlt =>
    cases (exec_hlt s).symm.trans h
    exact .inl rfl
  | ldi a imm | prn a | mul a b | add a b | cmp a b | push a | pop a =>
    simp only [exec_ldi_regByte, exec_prn_regByte, exec_mul_eq, exec_add_eq, exec_cmp_eq, exec_push_regByte,
      exec_pop_regByte, Host.Outcome.next.injEq] at h
    subst h
    exact .inr (.inl rfl)
  | call a | ret | jmp a =>
    simp only [exec_call_regByte, exec_ret, exec_jmp_regByte, Host.Outcome.next.injEq] at h
    subst h
    exact .inr (.inr ⟨_, rfl⟩)
  | jeq a | jne a =>
    simp only [exec_jeq_regByte, exec_jne_regByte, Host.Outcome.next.injEq] at h
    subst h
    split
    · simp [Instr.mnemonic, Mnemonic.length, Mnemonic.arity]
    · simp [Instr.mnemonic, Mnemonic.length, Mnemonic.arity]

/-- Only PRN writes OUT. -/
theorem exec_out_cases : t.out = s.out ∨ ∃ r, i = .prn (regByte r) ∧ t.out = s.out ++ [s.reg r] := by
  cases namesRegs_of_wf hwf with
  | prn a =>
    cases (exec_prn_regByte a s).symm.trans h
    exact .inr ⟨a, rfl, rfl⟩
  | hlt | ldi a imm | mul a b | add a b | cmp a b | push a | pop a | call a | ret | jmp a | jeq a | jne a =>
    simp only [exec_hlt, exec_ldi_regByte, exec_mul_eq, exec_add_eq, exec_cmp_eq, exec_push_regByte, exec_pop_regByte,
      exec_call_regByte, exec_ret, exec_jmp_regByte, exec_jeq_regByte, exec_jne_regByte,
      Host.Outcome.next.injEq] at h
    subst h
    exact .inl (by simp [apply_ite State.out])

end

theorem flagsOfCompare_legal (a b : Byte) : FlagsLegal (flagsOfCompare a b) := by
  obtain ⟨-, he⟩ | ⟨-, hg⟩ | ⟨-, hl⟩ := flagsOfCompare_cases a b
  · exact .inr (.inl he)
  · exact .inr (.inr (.inl hg))
  · exact .inr (.inr (.inr hl))

theorem exec_flagsLegal {i : Instr} {s t : State} (hwf : i.wf = true) (h : exec i s = .next t)
    (hfl : FlagsLegal s.fl) : FlagsLegal t.fl := by
  by_cases hcmp : t.fl = s.fl
  · exact hcmp.symm ▸ hfl
  · obtain ⟨a, b, rfl⟩ := exists_eq_cmp_of_fl_ne h hcmp
    cases namesRegs_of_wf hwf with
    | cmp a b =>
      cases (exec_cmp_eq a b s).symm.trans h
      exact flagsOfCompare_legal _ _

/-! ### Memory and OUT over a step -/

theorem pushed_memSameBut (value : State → Addr) (s : State) : MemSameBut (pushAddress s) s (pushed value s) :=
  fun a ha => read_write_other _ _ a _ ha

/-- Settles O20: a step that changes memory completes an instruction whose one store is a push. -/
theorem onlyPushAndCallStore : Obligations.OnlyPushAndCallStore := by
  intro c s t h
  obtain ⟨e, rfl⟩ | ⟨i, hfetch, hwf, hexec⟩ := stepWith_raises_or_completes h
  · exact ⟨fun _ _ => rfl, fun hne => absurd (fun _ => rfl) hne⟩
  · obtain hsame | ⟨⟨a, hi⟩, value, hmem⟩ := exec_mem_cases hwf hexec
    · exact ⟨fun a _ => by rw [hsame], fun hne => absurd (fun a => by rw [hsame]) hne⟩
    · refine ⟨fun a ha => hmem ▸ pushed_memSameBut value s a ha, fun _ => ⟨a, ?_⟩⟩
      obtain rfl | rfl := hi
      · exact .inl hfetch
      · exact .inr hfetch

/-- Settles O25: a raise leaves OUT, and so does every completed instruction but PRN. -/
theorem onlyPrintAddsOutput : Obligations.OnlyPrintAddsOutput := by
  intro c s t h
  obtain ⟨e, rfl⟩ | ⟨i, hfetch, hwf, hexec⟩ := stepWith_raises_or_completes h
  · exact .inl rfl
  · exact (exec_out_cases hwf hexec).imp_right fun ⟨r, hi, hout⟩ => ⟨r, hi ▸ hfetch, hout⟩

/-! ### The invariant -/

/-- An instruction all of whose bytes are in memory keeps the invariant: PC moves on to 256 at most. -/
theorem exec_inv {i : Instr} {s t : State} (hwf : i.wf = true) (h : exec i s = .next t)
    (hfits : s.pc.toNat + i.mnemonic.arity < memSize) (hinv : s.Inv) : t.Inv := by
  obtain ⟨hmem, hpc, hfl⟩ := hinv
  refine ⟨?_, ?_, exec_flagsLegal hwf h hfl⟩
  · obtain hsame | ⟨-, value, hpush⟩ := exec_mem_cases hwf h
    · exact hsame.symm ▸ hmem
    · exact hpush.symm ▸ pushed_mem_wf value s hmem
  · obtain hstay | hadvance | ⟨b, hjump⟩ := exec_pc_cases hwf h
    · exact hstay.symm ▸ hpc
    · simp only [memSize] at hfits
      rw [hadvance, BitVec.toNat_add, BitVec.toNat_ofNat, Mnemonic.length]
      omega
    · exact hjump.symm ▸ (zext9_lt b).le

theorem stepWith_inv {c : Config} {s t : State} (hinv : s.Inv) (h : stepWith c s = .next t) : t.Inv := by
  obtain ⟨e, rfl⟩ | ⟨i, hfetch, hwf, hexec⟩ := stepWith_raises_or_completes h
  · exact hinv
  · obtain ⟨k, -, hfits, rfl⟩ := fetch_ok hfetch
    exact exec_inv hwf hexec (by simpa using hfits) hinv

/-- Settles O49: a raise leaves memory, PC and FL, and a fetched instruction has all its bytes in memory. -/
theorem everyStepKeepsTheInvariant : Obligations.EveryStepKeepsTheInvariant :=
  ⟨fun _ _ hinv => stepWith_inv hinv, fun _ _ _ hinv => stepWith_inv hinv⟩

theorem reset_inv : State.reset.Inv :=
  ⟨reset_mem_wf, Nat.zero_le 256, .inl rfl⟩

/-- Settles O50: the reset memory is canonical, and PC and FL are 0. -/
theorem resetMeetsTheInvariant : Obligations.ResetMeetsTheInvariant := reset_inv

/-- Settles O51: a booted state is the reset state with a memory given by a function. -/
theorem bootStatesMeetTheInvariant : Obligations.BootStatesMeetTheInvariant := by
  intro memInit image s h
  obtain ⟨-, rfl⟩ := boot_eq_some h
  obtain ⟨-, hpc, hfl⟩ := reset_inv
  exact ⟨ofFn_wf _, hpc, hfl⟩

/-! ### Final states -/

/-- A step of an invariant state that takes its fetch's fault tells which: memory ended at 256, or the byte at PC. -/
theorem finalStateTold_of_fetch_error {c : Config} {s : State} {e : Raised} (hinv : s.Inv)
    (h : fetch c s = .error e) : FinalStateTold c.opcodes (raise e s) := by
  obtain ⟨-, hpc, -⟩ := hinv
  refine ⟨fun hhalted => by simp at hhalted, fun _ => ⟨rfl, ?_⟩⟩
  obtain ⟨hout, he⟩ | ⟨-, he⟩ | ⟨hin, hk, he⟩ | ⟨k, -, -, hi⟩ := fetch_cases c s
  · cases he.symm.trans h
    exact le_antisymm hpc hout
  · cases he.symm.trans h
    rfl
  · cases he.symm.trans h
    exact ⟨Nat.lt_succ_of_le hin, rfl, hk⟩
  · cases hi.symm.trans h

/-- A step stopped by the operand check tells the first operand byte above 7. -/
theorem finalStateTold_of_bad {c : Config} {s : State} {i : Instr} {b : Byte} (h : fetch c s = .ok i)
    (hbad : firstBadOperand i.regOperands = some b) : FinalStateTold c.opcodes (raise (invalidRegister b) s) := by
  obtain ⟨k, hk, hfits, rfl⟩ := fetch_ok h
  exact ⟨fun hhalted => by simp at hhalted, fun _ => ⟨rfl, k, b, hk, hfits, rfl, hbad⟩⟩

/-- A completed HLT stands at its own opcode byte; any other completed instruction ends no run. -/
theorem finalStateTold_of_exec {c : Config} {s t : State} {i : Instr} (hrun : s.run = .running)
    (hfetch : fetch c s = .ok i) (hwf : i.wf = true) (hexec : exec i s = .next t) : FinalStateTold c.opcodes t := by
  by_cases hi : i = .hlt
  · subst hi
    cases (exec_hlt s).symm.trans hexec
    obtain ⟨k, hk, hfits, hi⟩ := fetch_ok hfetch
    obtain rfl : Mnemonic.hlt = k := (congrArg Instr.mnemonic hi).trans (mnemonic_instrAtPc k s)
    exact ⟨fun _ => ⟨hfits, (lookupOpcode_sound _ _ _ hk).symm⟩, fun herr => by simp at herr⟩
  · obtain ⟨u, hu, hkept, -⟩ := exec_completes_of_wf s hwf hi
    cases hu.symm.trans hexec
    have hstill := hkept.trans hrun
    exact ⟨fun hhalted => by simp [hstill] at hhalted, fun herr => by simp [hstill] at herr⟩

/-- Settles O52: each of the three ends of a step tells why, where it ends the run. -/
theorem finalStatesTellWhyTheRunEnded : Obligations.FinalStatesTellWhyTheRunEnded := by
  intro c s t hinv h
  obtain ⟨hrun, -⟩ := stepWith_cases c s t h
  obtain ⟨e, he, rfl⟩ | ⟨i, b, hfetch, hbad, rfl⟩ | ⟨i, hfetch, hwf, hexec⟩ := stepWith_ends h
  · exact finalStateTold_of_fetch_error hinv he
  · exact finalStateTold_of_bad hfetch hbad
  · exact finalStateTold_of_exec hrun hfetch hwf hexec

end Sys2Proof.Machine

/-! SUPPORT and PROOF. What each instruction writes and what it leaves (`41_system_data.md`, `42_alu.md`,
`43_stack.md`, `44_control.md`). -/

namespace Sys2Proof.Machine

/-! ### Frames -/

theorem regsSameBut_setReg {dst : List Reg} {r : Reg} (s : State) (v : Byte) (hr : r ∈ dst) :
    RegsSameBut dst s (s.setReg r v) :=
  fun q hq => reg_setReg_other s r q v fun h => hq (h ▸ hr)

theorem regsSameBut_spDec (s : State) : RegsSameBut [spReg] s (spDec s) :=
  regsSameBut_setReg s _ (.head _)

theorem regsSameBut_spInc (s : State) : RegsSameBut [spReg] s (spInc s) :=
  regsSameBut_setReg s _ (.head _)

/-! ### HLT, LDI, PRN -/

/-- Settles O22: HLT writes RUN alone. -/
theorem haltStopsAndChangesNothingElse : Obligations.HaltStopsAndChangesNothingElse := fun s =>
  ⟨_, exec_hlt s, rfl, rfl, fun _ _ => rfl, fun _ => rfl, rfl, rfl, rfl⟩

/-- Settles O23: LDI is one register write and the advance. -/
theorem loadImmediateWritesTheByte : Obligations.LoadImmediateWritesTheByte := fun a imm s =>
  ⟨_, exec_ldi_regByte a imm s, reg_setReg_same s a imm, rfl, regsSameBut_setReg s imm (.head _), fun _ => rfl,
    rfl, rfl, rfl, rfl⟩

/-- Settles O24: PRN is one `emit` and the advance. -/
theorem printAppendsTheRegister : Obligations.PrintAppendsTheRegister := fun a s =>
  ⟨_, exec_prn_regByte a s, rfl, rfl, fun _ _ => rfl, fun _ => rfl, rfl, rfl, rfl⟩

/-! ### Sequences -/

theorem execAll_cons_of_next {i : Instr} {s t : State} (h : exec i s = .next t) (rest : List Instr) :
    execAll (i :: rest) s = execAll rest t := by
  simp [execAll, h]

theorem execAll_append_of_next {xs : List Instr} {s t : State} (h : execAll xs s = .next t) (ys : List Instr) :
    execAll (xs ++ ys) s = execAll ys t := by
  induction xs generalizing s with
  | nil => cases h; rfl
  | cons i rest ih =>
    obtain ⟨u, hu⟩ := exec_eq_next i s
    rw [execAll_cons_of_next hu] at h
    rw [List.cons_append, execAll_cons_of_next hu, ih h]

theorem execAll_pair {i j : Instr} {s t u : State} (hi : exec i s = .next t) (hj : exec j t = .next u) :
    execAll [i, j] s = .next u := by
  rw [execAll_cons_of_next hi, execAll_cons_of_next hj, execAll]

/-- Settles O26: PRN reads what LDI wrote, and the two advances sum. -/
theorem printAfterLoadGivesTheLiteral : Obligations.PrintAfterLoadGivesTheLiteral := by
  intro a imm s
  refine ⟨_, execAll_pair (exec_ldi_regByte a imm s) (exec_prn_regByte a _), ?_, ?_⟩
  · simp
  · exact BitVec.add_assoc s.pc 3 2

/-! ### MUL, ADD, CMP -/

/-- Settles O28: MUL writes the 8-bit product. -/
theorem multiplyWritesTheProductModulo256 : Obligations.MultiplyWritesTheProductModulo256 := fun a b s =>
  ⟨_, exec_mul_eq a b s, by simp [BitVec.toNat_mul], rfl, regsSameBut_setReg s _ (.head _), fun _ => rfl,
    rfl, rfl, rfl, rfl⟩

/-- Settles O29: ADD writes the 8-bit sum. -/
theorem addWritesTheSumModulo256 : Obligations.AddWritesTheSumModulo256 := fun a b s =>
  ⟨_, exec_add_eq a b s, by simp [BitVec.toNat_add], rfl, regsSameBut_setReg s _ (.head _), fun _ => rfl,
    rfl, rfl, rfl, rfl⟩

/-- Settles O30: CMP writes the flags of the two registers' comparison. -/
theorem compareSetsExactlyOneFlag : Obligations.CompareSetsExactlyOneFlag := fun a b s =>
  ⟨_, exec_cmp_eq a b s, fun h => flagsOfCompare_of_eq (BitVec.eq_of_toNat_eq h), flagsOfCompare_of_gt,
    flagsOfCompare_of_lt, rfl, fun _ _ => rfl, fun _ => rfl, rfl, rfl, rfl⟩

/-! ### PUSH, POP -/

@[simp] theorem sp_advance (s : State) (n : Nat) : (s.advance n).sp = s.sp := rfl
@[simp] theorem sp_jumpTo (s : State) (v : Byte) : (s.jumpTo v).sp = s.sp := rfl
@[simp] theorem sp_pushed (value : State → Addr) (s : State) : (pushed value s).sp = s.sp - 1 := sp_spDec s

theorem toNat_sub_one (b : Byte) : (b - 1).toNat = (b.toNat + 255) % 256 := by
  simp [BitVec.toNat_sub, Nat.add_comm]

theorem toNat_add_one (b : Byte) : (b + 1).toNat = (b.toNat + 1) % 256 := by
  simp [BitVec.toNat_add]

@[simp] theorem read_pushed (value : State → Addr) (s : State) :
    (pushed value s).mem.read (pushAddress s).toNat = (value (spDec s)).setWidth 8 :=
  read_write_same _ _ _

/-- The byte a push stores, read at the stack pointer it leaves. -/
theorem read_pushed_sp (value : State → Addr) (s : State) :
    (pushed value s).mem.read (pushed value s).sp.toNat = (value (spDec s)).setWidth 8 := by
  rw [sp_pushed, ← pushAddress_toNat, read_pushed]

/-- Settles O33: PUSH is a push of the register as it stands after the decrement. -/
theorem pushStoresBelowTheStackPointer : Obligations.PushStoresBelowTheStackPointer := by
  intro a s
  refine ⟨_, exec_push_regByte a s, ?_, ?_, ?_,
    pushed_memSameBut (fun u => zext9 (u.reg a)) s, regsSameBut_spDec s, rfl, rfl, rfl, rfl, rfl⟩
  · rw [sp_advance, sp_pushed, toNat_sub_one]
  · simp [pushAddress_toNat]
  · simp only [advance_mem, read_pushed, setWidth_zext9, reg_spDec, sp_advance, sp_pushed]

theorem sp_setReg_of_ne (s : State) {a : Reg} (v : Byte) (h : a ≠ spReg) : (s.setReg a v).sp = s.sp :=
  reg_setReg_other s a spReg v h.symm

theorem sp_setReg_spReg (s : State) (v : Byte) : (s.setReg spReg v).sp = v :=
  reg_setReg_same s spReg v

theorem reg_spInc_of_ne (s : State) {a : Reg} (h : a ≠ spReg) : (spInc s).reg a = s.reg a := by
  rw [reg_spInc, if_neg h]

theorem reg_spDec_of_ne (s : State) {a : Reg} (h : a ≠ spReg) : (spDec s).reg a = s.reg a := by
  rw [reg_spDec, if_neg h]

/-- Settles O34: POP writes the register and then moves the stack pointer as that write left it. -/
theorem popLoadsFromTheStackPointer : Obligations.PopLoadsFromTheStackPointer := by
  intro a s
  refine ⟨_, exec_pop_regByte a s, fun ha => ⟨?_, ?_⟩, ?_, fun r hr => ?_, fun _ => rfl, rfl, rfl, rfl, rfl, rfl⟩
  · rw [reg_advance, reg_spInc_of_ne _ ha, reg_setReg_same]
  · rw [sp_advance, sp_spInc, sp_setReg_of_ne s _ ha, toNat_add_one]
  · rintro rfl
    rw [sp_advance, sp_spInc, sp_setReg_spReg, toNat_add_one]
  · obtain ⟨hra, hrsp⟩ : r ≠ a ∧ r ≠ spReg := by simpa using hr
    rw [reg_advance, reg_spInc_of_ne _ hrsp, reg_setReg_other _ _ _ _ hra]

/-! ### CALL, RET, JMP, JEQ, JNE -/

/-- Settles O38: CALL is a push of the return address and a jump to the register as it stands after the push. -/
theorem callPushesTheReturnAddress : Obligations.CallPushesTheReturnAddress := by
  intro a s
  refine ⟨_, exec_call_regByte a s, ?_, ?_, ?_, ?_,
    pushed_memSameBut (fun _ => returnAddress s) s, regsSameBut_spDec s, rfl, rfl, rfl, rfl⟩
  · rw [sp_jumpTo, sp_pushed, toNat_sub_one]
  · simp [pushAddress_toNat]
  · simp only [jumpTo_mem, read_pushed, BitVec.toNat_setWidth, returnAddress]
  · simp only [jumpTo_pc, zext9_toNat, reg_spDec, sp_jumpTo, sp_pushed, apply_ite BitVec.toNat]

/-- Settles O39: RET jumps to the byte at SP and increments SP. -/
theorem returnPopsIntoThePc : Obligations.ReturnPopsIntoThePc := fun s =>
  ⟨_, exec_ret s, zext9_toNat _, by rw [sp_jumpTo, sp_spInc, toNat_add_one], regsSameBut_spInc s, fun _ => rfl,
    rfl, rfl, rfl, rfl⟩

/-- What a write of PC leaves: everything else. -/
theorem setPc_frame (s : State) (v : Addr) :
    RegsSameBut [] s (s.setPc v) ∧ MemSame s (s.setPc v) ∧ ControlSame s (s.setPc v) :=
  ⟨fun _ _ => rfl, fun _ => rfl, rfl, rfl, rfl, rfl⟩

/-- Settles O40: JMP writes PC alone. -/
theorem jumpGoesToTheRegister : Obligations.JumpGoesToTheRegister := fun a s =>
  ⟨_, exec_jmp_regByte a s, zext9_toNat _, setPc_frame s _⟩

/-- Settles O41: with Equal set JEQ is a jump, with Equal clear an advance. -/
theorem jumpIfEqualFollowsTheEqualFlag : Obligations.JumpIfEqualFollowsTheEqualFlag := by
  intro a s
  refine ⟨_, exec_jeq_regByte a s, ?_⟩
  cases he : s.equalFlag with
  | true => exact ⟨fun _ => zext9_toNat _, fun hclear => absurd (he.symm.trans hclear) (by decide), setPc_frame s _⟩
  | false => exact ⟨fun hset => absurd (he.symm.trans hset) (by decide), fun _ => rfl, setPc_frame s _⟩

/-- Settles O42: with Equal clear JNE is a jump, with Equal set an advance. -/
theorem jumpIfNotEqualFollowsTheEqualFlag : Obligations.JumpIfNotEqualFollowsTheEqualFlag := by
  intro a s
  refine ⟨_, exec_jne_regByte a s, ?_⟩
  cases he : s.equalFlag with
  | true => exact ⟨fun hclear => absurd (he.symm.trans hclear) (by decide), fun _ => rfl, setPc_frame s _⟩
  | false => exact ⟨fun _ => zext9_toNat _, fun hset => absurd (he.symm.trans hset) (by decide), setPc_frame s _⟩

/-- Settles O43: RET reads the return address CALL stored, which is below 256 and so uncut, and undoes CALL's
decrement. -/
theorem returnResumesAfterTheCall : Obligations.ReturnResumesAfterTheCall := by
  intro a s t u hpc hcall hsp hcell
  cases (exec_call_regByte a s).symm.trans hcall
  have hstored : u.mem.read u.sp.toNat = (returnAddress s).setWidth 8 := 
    hcell.trans (read_pushed_sp (fun _ => returnAddress s) s)
  refine ⟨_, exec_ret u, ?_, ?_⟩
  · have hsum : (s.pc + 2).toNat = s.pc.toNat + 2 := BitVec.toNat_add_of_lt (by simp; omega)
    rw [jumpTo_pc, hstored, returnAddress]
    apply BitVec.eq_of_toNat_eq
    rw [zext9_toNat, BitVec.toNat_setWidth, hsum]
    omega
  · rw [sp_jumpTo, sp_spInc, hsp, sp_jumpTo, sp_pushed, BitVec.sub_add_cancel]

/-- Settles O44: PC as each transfer's own meaning leaves it, and straight-line code by its length. -/
theorem onlyTransfersSetThePcDirectly : Obligations.OnlyTransfersSetThePcDirectly := by
  intro i s t hwf h
  refine ⟨?_, ?_, ?_, ?_, fun hi => ?_⟩
  · rintro rfl
    cases (exec_hlt s).symm.trans h
    rfl
  · rintro rfl
    cases (exec_ret s).symm.trans h
    exact ⟨rfl, rfl⟩
  · rintro a (rfl | rfl)
    · obtain ⟨r, rfl⟩ := exists_regByte_of_wf hwf (.head _)
      cases (exec_jmp_regByte r s).symm.trans h
      exact ⟨⟨r, rfl, rfl⟩, rfl⟩
    · obtain ⟨r, rfl⟩ := exists_regByte_of_wf hwf (.head _)
      cases (exec_call_regByte r s).symm.trans h
      exact ⟨⟨r, rfl, rfl⟩, rfl⟩
  · rintro a (rfl | rfl)
    · obtain ⟨r, rfl⟩ := exists_regByte_of_wf hwf (.head _)
      cases (exec_jeq_regByte r s).symm.trans h
      split
      · exact ⟨.inr ⟨r, rfl, rfl⟩, rfl⟩
      · exact ⟨.inl rfl, rfl⟩
    · obtain ⟨r, rfl⟩ := exists_regByte_of_wf hwf (.head _)
      cases (exec_jne_regByte r s).symm.trans h
      split
      · exact ⟨.inl rfl, rfl⟩
      · exact ⟨.inr ⟨r, rfl, rfl⟩, rfl⟩
  · have hline : i.mnemonic ∈ [.ldi, .prn, .mul, .add, .cmp, .push, .pop] := by
      revert hi
      cases i.mnemonic <;> decide
    obtain ⟨u, hu, hpc⟩ := exec_advancesPc_of_straightLine s hwf hline
    cases hu.symm.trans h
    exact hpc

end Sys2Proof.Machine

/-! SUPPORT and PROOF. What the stack gives back: register 7 as an operand, POP after PUSH, pops in reverse after any
pushes, and a pushed byte that is fetched next (`43_stack.md` sections 1 and 2, `20_memory.md` section 6). -/

namespace Sys2Proof.Machine

/-- Settles O35: the laws of PUSH, POP and CALL at register 7, read at the stack pointer they leave. -/
theorem stackPointerAsStackOperand : Obligations.StackPointerAsStackOperand := by
  refine fun s => ⟨?_, ?_, ?_⟩
  · obtain ⟨t, ht, hsp, haddr, hcell, -⟩ := pushStoresBelowTheStackPointer spReg s
    exact ⟨t, ht, hsp, by rw [← haddr, hcell, if_pos rfl, hsp]⟩
  · obtain ⟨t, ht, -, hsp, -⟩ := popLoadsFromTheStackPointer spReg s
    exact ⟨t, ht, hsp rfl⟩
  · obtain ⟨t, ht, hsp, haddr, hcell, hpc, -⟩ := callPushesTheReturnAddress spReg s
    rw [if_pos rfl] at hpc
    exact ⟨t, ht, hpc.trans hsp, hpc.symm, haddr ▸ hcell⟩

/-! ### POP after PUSH -/

/-- POP of a register gives back every register, where the registers stand as a PUSH of it left them and the byte at
the stack pointer is the pushed one. -/
theorem regsSame_of_pop_after_push {a : Reg} {s v : State} (ha : a ≠ spReg) (hregs : RegsSameBut [] (spDec s) v)
    (hcell : v.mem.read v.sp.toNat = s.reg a) :
    RegsSameBut [] s ((spInc (v.setReg a (v.mem.read v.sp.toNat))).advance 2) := by
  intro q _
  have hv : ∀ r, v.reg r = (spDec s).reg r := fun r => hregs r List.not_mem_nil
  rw [reg_advance]
  by_cases hq : q = spReg
  · subst hq
    have hsp : v.sp = s.sp - 1 := (hv spReg).trans (sp_spDec s)
    rw [reg_spInc, if_pos rfl, sp_setReg_of_ne _ _ ha, hsp, BitVec.sub_add_cancel, State.sp]
  · rw [reg_spInc_of_ne _ hq, reg_setReg]
    split
    · subst q
      exact hcell
    · rw [hv, reg_spDec_of_ne s hq]

/-- The byte a PUSH of a register other than 7 leaves at the new stack pointer. -/
theorem read_pushed_reg {a : Reg} (s : State) (ha : a ≠ spReg) :
    (pushed (fun u => zext9 (u.reg a)) s).mem.read (s.sp - 1).toNat = s.reg a := by
  rw [← pushAddress_toNat, read_pushed, setWidth_zext9, reg_spDec_of_ne s ha]

/-- Settles O36: nothing stands between the PUSH and the POP, so the POP reads the pushed byte. -/
theorem popRestoresWhatPushStored : Obligations.PopRestoresWhatPushStored := by
  intro a s ha
  refine ⟨_, execAll_pair (exec_push_regByte a s) (exec_pop_regByte a _), ?_,
    pushed_memSameBut (fun u => zext9 (u.reg a)) s, ⟨rfl, rfl, rfl, rfl⟩, BitVec.add_assoc s.pc 2 2⟩
  refine regsSame_of_pop_after_push ha (fun _ _ => rfl) ?_
  rw [sp_advance, sp_pushed]
  exact read_pushed_reg s ha

/-! ### Pops in reverse after pushes -/

/-- The addresses that `n` pushes store to, from a stack pointer `sp`: the `n` below it, modulo 256. -/
def IsPushCell (sp : Byte) (n a : Nat) : Prop :=
  ∃ j, 1 ≤ j ∧ j ≤ n ∧ a = (sp - BitVec.ofNat 8 j).toNat

theorem isPushCell_first (sp : Byte) (n : Nat) : IsPushCell sp (n + 1) (sp - 1).toNat :=
  ⟨1, le_rfl, Nat.le_add_left 1 n, rfl⟩

theorem isPushCell_succ {sp : Byte} {n a : Nat} (h : IsPushCell (sp - 1) n a) : IsPushCell sp (n + 1) a := by
  obtain ⟨j, -, hjn, rfl⟩ := h
  refine ⟨j + 1, Nat.le_add_left 1 j, Nat.succ_le_succ hjn, congrArg BitVec.toNat ?_⟩
  rw [BitVec.sub_sub, BitVec.ofNat_add, BitVec.add_comm]
  rfl

/-- Up to 255 pushes do not reach round to the cell at the stack pointer itself. -/
theorem not_isPushCell_self {sp : Byte} {n : Nat} (hn : n ≤ 255) : ¬ IsPushCell sp n sp.toNat := by
  rintro ⟨j, hj, hjn, h⟩
  rw [BitVec.toNat_sub, BitVec.toNat_ofNat] at h
  have := sp.isLt
  omega

/-- Pushes of registers followed by their pops in reverse. -/
def pushesThenPops (rs : List Reg) : List Instr :=
  rs.map (fun r => .push (regByte r)) ++ rs.reverse.map (fun r => .pop (regByte r))

theorem pushesThenPops_cons (r : Reg) (rs : List Reg) :
    pushesThenPops (r :: rs) = .push (regByte r) :: (pushesThenPops rs ++ [.pop (regByte r)]) := by
  simp [pushesThenPops]

/-- Up to 256 pushes and their pops in reverse give back every register, and change memory only in the cells pushed to:
the inner ones, being at most 255, do not touch the cell of the outer push. -/
theorem execAll_pushesThenPops (rs : List Reg) (s : State) (hlen : rs.length ≤ 256) (hrs : ∀ r ∈ rs, r ≠ spReg) :
    ∃ t, execAll (pushesThenPops rs) s = .next t ∧ RegsSameBut [] s t ∧ ControlSame s t ∧
      ∀ a, ¬ IsPushCell s.sp rs.length a → t.mem.read a = s.mem.read a := by
  induction rs generalizing s with
  | nil => exact ⟨s, rfl, fun _ _ => rfl, ⟨rfl, rfl, rfl, rfl⟩, fun _ _ => rfl⟩
  | cons r rest ih =>
    have hr : r ≠ spReg := hrs r (.head _)
    have hrest : rest.length ≤ 255 := Nat.le_of_succ_le_succ hlen
    obtain ⟨v, hv, hregs, ⟨hfl, hrun, herr, hout⟩, hmem⟩ :=
      ih ((pushed (fun u => zext9 (u.reg r)) s).advance 2) (hrest.trans (Nat.le_succ _))
        fun q hq => hrs q (.tail _ hq)
    rw [sp_advance, sp_pushed, advance_mem] at hmem
    have hsp : v.sp = s.sp - 1 := (hregs spReg List.not_mem_nil).trans (sp_spDec s)
    have hcell : v.mem.read v.sp.toNat = s.reg r := by
      rw [hsp, hmem _ (not_isPushCell_self hrest), read_pushed_reg s hr]
    refine ⟨_, ?_, regsSame_of_pop_after_push hr hregs hcell, ⟨hfl, hrun, herr, hout⟩, fun a ha => ?_⟩
    · rw [pushesThenPops_cons, execAll_cons_of_next (exec_push_regByte r s), execAll_append_of_next hv,
        execAll_cons_of_next (exec_pop_regByte r v), execAll]
    · have houter : a ≠ (pushAddress s).toNat := by
        rw [pushAddress_toNat]
        rintro rfl
        exact ha (isPushCell_first s.sp rest.length)
      exact (hmem a fun hin => ha (isPushCell_succ hin)).trans (pushed_memSameBut _ s a houter)

/-- Settles O37: the induction also says which cells the pushes store to, so that each pop finds its byte. -/
theorem popsInReverseUndoPushes : Obligations.PopsInReverseUndoPushes := by
  intro rs s hlen hrs
  obtain ⟨t, ht, hregs, hcontrol, -⟩ := execAll_pushesThenPops rs s hlen hrs
  exact ⟨t, ht, hregs, hcontrol⟩

/-! ### A pushed byte as the next instruction -/

/-- Settles O21: the PUSH's store is at its own PC + 2, where the next fetch reads HLT's opcode. -/
theorem pushedByteIsFetchedNext : Obligations.PushedByteIsFetchedNext := by
  intro s r rest hrun hdecode haddr hbyte
  obtain ⟨hstep, -⟩ := stepExecutesTheDecodedInstruction
  have hpush := (hstep s _ rest hrun hdecode).trans (exec_push_regByte r s)
  have hin : (pushAddress s).toNat < 256 := zext9_lt _
  have hpc : (s.pc + 2).toNat = (pushAddress s).toNat := by
    rw [haddr]
    exact BitVec.toNat_add_of_lt (by simp; omega)
  have hfetched : (pushed (fun u => zext9 (u.reg r)) s).mem.read (s.pc + 2).toNat = standardOpcodes .hlt := by
    rw [hpc, read_pushed, setWidth_zext9, hbyte]
  have hlookup : lookupOpcode standardOpcodes ((pushed (fun u => zext9 (u.reg r)) s).mem.read (s.pc + 2).toNat) =
      some .hlt :=
    (lookupOpcode_eq_some_iff distinct_standardOpcodes _ _).2 hfetched.symm
  have hhalt := stepWith_of_fits (c := defaultConfig) (s := (pushed (fun u => zext9 (u.reg r)) s).advance 2)
    hrun hlookup (.inr rfl) (lt_of_eq_of_lt hpc hin)
  exact ⟨_, _, hpush, hhalt.trans (exec_hlt _), rfl, rfl⟩

end Sys2Proof.Machine

/-! SUPPORT and PROOF. The memory's two primitives, its canonical form, reset and the load of an image, and the trace
tap (`20_memory.md`, `70_reset_and_hazards.md`, `60_exceptions.md` sections 2 and 4). -/

namespace Sys2Proof.Machine

/-! ### Reads and writes -/

/-- A write that succeeds was in range and stored the low byte of the value. -/
theorem memWrite_ok {addr v : Addr} {s t : State} (h : memWrite addr v s = .ok t) :
    t = s.setMem (s.mem.write addr.toNat (v.setWidth 8)) := by
  by_cases hin : addr.toNat < memSize
  · exact (Except.ok.inj ((memWrite_in addr v s hin).symm.trans h)).symm
  · cases (memWrite_out addr v s hin).symm.trans h

/-- The writes of a list of addresses and values, in order, up to the first that faults. -/
abbrev memWrites (ws : List (Addr × Addr)) (s : State) : Except Raised State :=
  ws.foldlM (fun u w => memWrite w.1 w.2 u) s

theorem memWrites_cons_ok {w : Addr × Addr} {ws : List (Addr × Addr)} {s t : State}
    (h : memWrites (w :: ws) s = .ok t) : ∃ u, memWrite w.1 w.2 s = .ok u ∧ memWrites ws u = .ok t := by
  rw [memWrites, List.foldlM_cons] at h
  cases hw : memWrite w.1 w.2 s with
  | error e => simp [hw, bind, Except.bind] at h
  | ok u => exact ⟨u, rfl, by simpa [hw, bind, Except.bind] using h⟩

/-- Writes to other addresses leave the cell. -/
theorem read_memWrites_other {addr : Addr} {ws : List (Addr × Addr)} {s t : State} (hne : ∀ w ∈ ws, w.1 ≠ addr)
    (h : memWrites ws s = .ok t) : t.mem.read addr.toNat = s.mem.read addr.toNat := by
  induction ws generalizing s with
  | nil => cases h; rfl
  | cons w ws ih =>
    obtain ⟨u, hw, hws⟩ := memWrites_cons_ok h
    have haddr : addr.toNat ≠ w.1.toNat := fun heq => hne w (.head _) (BitVec.eq_of_toNat_eq heq.symm)
    rw [ih (fun x hx => hne x (.tail _ hx)) hws, memWrite_ok hw, setMem_mem, read_write_other _ _ _ _ haddr]

/-- Settles O17: later writes go elsewhere, so the read finds the first one, or the loaded byte where there was none. -/
theorem memoryReadGivesTheLatestWrite : Obligations.MemoryReadGivesTheLatestWrite := by
  refine ⟨fun addr s => ⟨fun h => memRead_in addr s (Nat.lt_succ_of_le h), fun h => memRead_out addr s (not_lt.2 h)⟩,
    fun addr v later s t hin hne h => ?_, fun addr writes memInit image s t hin hboot hne h => ?_⟩
  · obtain ⟨u, hw, hlater⟩ := memWrites_cons_ok h
    rw [memRead_in addr t (Nat.lt_succ_of_le hin), read_memWrites_other hne hlater, memWrite_ok hw, setMem_mem,
      read_write_same]
  · obtain ⟨-, rfl⟩ := boot_eq_some hboot
    rw [memRead_in addr t (Nat.lt_succ_of_le hin), read_memWrites_other hne h, setMem_mem,
      read_ofFn _ _ (Nat.lt_succ_of_le hin)]

/-- Settles O18: in range a write is one `setMem` of one written cell. -/
theorem memoryWriteChangesOneCell : Obligations.MemoryWriteChangesOneCell := by
  refine fun addr v s => ⟨fun h => memWrite_out addr v s (not_lt.2 h), fun h =>
    ⟨_, memWrite_in addr v s (Nat.lt_succ_of_le h), ?_, fun a ha => read_write_other _ _ a _ ha, rfl⟩⟩
  rw [setMem_mem, read_write_same, BitVec.toNat_setWidth]

/-! ### The canonical form -/

/-- With rising addresses the first cell found at an address is the only one. -/
theorem cellAt_of_mem {cs : List Host.Cell} {a : Nat} {v : Byte} (hr : cs.Pairwise fun p q => p.1 < q.1)
    (h : (a, v) ∈ cs) : cellAt a cs = v := by
  induction cs with
  | nil => cases h
  | cons p rest ih =>
    obtain ⟨hp, hrest⟩ := List.pairwise_cons.1 hr
    obtain rfl | h := List.mem_cons.1 h
    · simp [cellAt]
    · simp [cellAt, (hp _ h).ne, ih hrest h]

theorem mem_of_cellAt_ne {cs : List Host.Cell} {a : Nat} (h : cellAt a cs ≠ initByte) : (a, cellAt a cs) ∈ cs := by
  induction cs with
  | nil => exact absurd rfl h
  | cons p rest ih =>
    by_cases hp : p.1 = a
    · subst hp
      simp [cellAt]
    · simp only [cellAt, hp, if_false] at h ⊢
      exact .tail _ (ih h)

/-- Every cell of a canonical memory is a cell of any memory that reads alike. -/
theorem mem_cells_of_read_eq {m n : Memory} (hm : m.wf) (h : ∀ a, a < memSize → m.read a = n.read a) {p : Host.Cell}
    (hp : p ∈ m.cells) : p ∈ n.cells := by
  obtain ⟨hrising, hcells⟩ := hm
  obtain ⟨hin, hne⟩ := hcells p hp
  have hread : cellAt p.1 n.cells = p.2 := (h p.1 hin).symm.trans (cellAt_of_mem hrising hp)
  have hmem := mem_of_cellAt_ne (hread.trans_ne hne)
  rwa [hread] at hmem

/-- Settles O19: the memories have the same cells, and rising addresses leave one order for them. -/
theorem canonicalMemoriesThatReadAlikeAreEqual : Obligations.CanonicalMemoriesThatReadAlikeAreEqual := by
  intro m n hm hn h
  have hcells : m.cells = n.cells := by
    have hirrefl : Std.Irrefl fun p q : Host.Cell => p.1 < q.1 := ⟨fun p => lt_irrefl p.1⟩
    have hantisymm : Std.Antisymm fun p q : Host.Cell => p.1 < q.1 := ⟨fun p q hpq hqp => absurd hqp hpq.not_gt⟩
    exact hm.1.eq_of_mem_iff hn.1 fun p =>
      ⟨mem_cells_of_read_eq hm h, mem_cells_of_read_eq hn fun a ha => (h a ha).symm⟩
  cases m
  cases n
  exact congrArg Memory.mk hcells

/-! ### Reset and load -/

/-- Settles O53: the reset state, field by field. -/
theorem resetLeavesTheTabledValues : Obligations.ResetLeavesTheTabledValues :=
  ⟨rfl, rfl, rfl, by decide, rfl, rfl, fun _ => rfl, rfl⟩

theorem boot_of_fits (memInit : Nat → Byte) {image : List Byte} (h : image.length ≤ memSize) :
    boot memInit image = some (State.reset.setMem (Memory.ofFn fun a => (image[a]?).getD (memInit a))) := if_pos h

theorem boot_of_long (memInit : Nat → Byte) {image : List Byte} (h : ¬ image.length ≤ memSize) :
    boot memInit image = none := if_neg h

/-- Settles O54: the booted memory is the function that reads the image and, past its end, MEM_INIT. -/
theorem loadedImageStandsFromAddressZero : Obligations.LoadedImageStandsFromAddressZero := by
  intro memInit image before
  rw [hostReset_eq_boot]
  refine ⟨fun h => boot_of_long memInit (not_le.2 h), fun h =>
    ⟨_, boot_of_fits memInit h, fun k b hk => ?_, fun k hk hin => ?_, rfl⟩⟩
  · obtain ⟨hlt, -⟩ := List.getElem?_eq_some_iff.1 hk
    rw [setMem_mem, read_ofFn _ k (hlt.trans_le h), hk, Option.getD_some]
  · rw [setMem_mem, read_ofFn _ k hin, List.getElem?_eq_none hk, Option.getD_none]

/-- Settles O55: the byte at address 0 is 0x00, which is no opcode. -/
theorem emptyImageStopsAtTheFirstStep : Obligations.EmptyImageStopsAtTheFirstStep :=
  ⟨_, stepWith_of_unknown (c := defaultConfig) rfl (.inr ⟨rfl, by decide⟩) (by decide), rfl, rfl⟩

/-! ### Raise and the trace tap -/

/-- Settles O11: `raise` is the two writes of ERR and RUN, and Error enables no step. -/
theorem raiseWritesErrAndRunOnly : Obligations.RaiseWritesErrAndRunOnly := fun _ _ s =>
  ⟨rfl, if_pos (raise_run _ s), fun c => stepWith_of_error c (raise_run _ s)⟩

theorem tapByte_eq (beyond : Nat → Byte) (s : State) {a : Nat} {p : Prop} [Decidable p] (h : a < memSize ↔ p) :
    tapByte beyond s a = if p then s.mem.read a else beyond a :=
  if_congr h rfl rfl

/-- Settles O56: each byte of the tap by whether its address is in memory. -/
theorem traceShowsPcBytesAndRegisters : Obligations.TraceShowsPcBytesAndRegisters := fun beyond s =>
  ⟨rfl, rfl, tapByte_eq beyond s (by simp only [memSize]; omega), tapByte_eq beyond s (by simp only [memSize]; omega),
    tapByte_eq beyond s (by simp only [memSize]; omega)⟩

end Sys2Proof.Machine

/-! SUPPORT and PROOF. What no step reads: the Greater and Less bits, OUT and ERR, and for each instruction the
registers outside its row of the table (`42_alu.md` section CMP, `10_state.md` sections 2, 5 and 6). -/

namespace Sys2Proof.Machine

/-! ### Greater and Less -/

@[simp] theorem equalFlag_setOut (s : State) (o : List Byte) : (s.setOut o).equalFlag = s.equalFlag := rfl
@[simp] theorem equalFlag_setErr (s : State) (e : ErrorRecord) : (s.setErr e).equalFlag = s.equalFlag := rfl
@[simp] theorem equalFlag_setReg (s : State) (r : Reg) (v : Byte) : (s.setReg r v).equalFlag = s.equalFlag := rfl

section
variable {i : Instr} {s t : State} (hwf : i.wf = true) (h : exec i s = .next t)
include hwf h

/-- With another FL of the same Equal bit, CMP leaves the very same state, and any other instruction the same state but
for FL, which it keeps. -/
theorem exec_setFl {f : FlagBits} (hflag : (s.setFl f).equalFlag = s.equalFlag) :
    exec i (s.setFl f) = .next t ∨ (t.fl = s.fl ∧ exec i (s.setFl f) = .next (t.setFl f)) := by
  cases namesRegs_of_wf hwf with
  | cmp a b =>
    cases (exec_cmp_eq a b s).symm.trans h
    exact .inl (exec_cmp_eq a b (s.setFl f))
  | hlt | ldi a imm | prn a | mul a b | add a b | push a | pop a | call a | ret | jmp a =>
    simp only [exec_hlt, exec_ldi_regByte, exec_prn_regByte, exec_mul_eq, exec_add_eq, exec_push_regByte,
      exec_pop_regByte, exec_call_regByte, exec_ret, exec_jmp_regByte, Host.Outcome.next.injEq] at h ⊢
    subst h
    exact .inr ⟨rfl, rfl⟩
  | jeq a | jne a =>
    simp only [exec_jeq_regByte, exec_jne_regByte, hflag, Host.Outcome.next.injEq] at h ⊢
    subst h
    right
    split
    · exact ⟨rfl, rfl⟩
    · exact ⟨rfl, rfl⟩

/-- With another OUT and ERR, an instruction leaves the same state but for those: ERR kept, and the same added to
OUT. -/
theorem exec_setOut_setErr (o : List Byte) (e : ErrorRecord) :
    ∃ added, t.out = s.out ++ added ∧
      exec i ((s.setOut o).setErr e) = .next ((t.setOut (o ++ added)).setErr e) := by
  cases namesRegs_of_wf hwf with
  | prn a =>
    cases (exec_prn_regByte a s).symm.trans h
    exact ⟨[s.reg a], rfl, exec_prn_regByte a _⟩
  | hlt | ldi a imm | mul a b | add a b | cmp a b | push a | pop a | call a | ret | jmp a =>
    refine ⟨[], ?_⟩
    simp only [exec_hlt, exec_ldi_regByte, exec_mul_eq, exec_add_eq, exec_cmp_eq, exec_push_regByte,
      exec_pop_regByte, exec_call_regByte, exec_ret, exec_jmp_regByte, Host.Outcome.next.injEq,
      List.append_nil] at h ⊢
    subst h
    exact ⟨rfl, rfl⟩
  | jeq a | jne a =>
    refine ⟨[], ?_⟩
    simp only [exec_jeq_regByte, exec_jne_regByte, equalFlag_setErr, equalFlag_setOut, Host.Outcome.next.injEq,
      List.append_nil] at h ⊢
    subst h
    split
    · rename_i he
      exact ⟨rfl, if_pos he⟩
    · rename_i he
      exact ⟨rfl, if_neg he⟩

end

/-- A step of a state with the same RUN, PC and memory takes the same fault, or executes the same instruction. -/
theorem stepWith_of_same_fetch {c : Config} {s s' t : State} (hrun : s'.run = s.run) (hpc : s'.pc = s.pc)
    (hmem : s'.mem = s.mem) (h : stepWith c s = .next t) :
    (∃ e, t = raise e s ∧ stepWith c s' = .next (raise e s')) ∨
    (∃ i, i.wf = true ∧ exec i s = .next t ∧ stepWith c s' = exec i s') := by
  obtain ⟨hrunning, -⟩ := stepWith_cases c s t h
  have hfetch := fetch_congr c hpc hmem
  have hrun' := hrun.trans hrunning
  obtain ⟨e, he, rfl⟩ | ⟨i, b, hi, hbad, rfl⟩ | ⟨i, hi, hwf, hexec⟩ := stepWith_ends h
  · exact .inl ⟨e, rfl, stepWith_of_fetch_error hrun' (hfetch.trans he)⟩
  · exact .inl ⟨_, rfl, (stepWith_of_fetch_ok hrun' (hfetch.trans hi)).trans
      (badRegisterOperandRaisesInvalidRegister i b s' hbad)⟩
  · exact .inr ⟨i, hwf, hexec, stepWith_of_fetch_ok hrun' (hfetch.trans hi)⟩

/-- Settles O32: FL is read by the branches alone, and of it the Equal bit alone. -/
theorem greaterAndLessSteerNothing : Obligations.GreaterAndLessSteerNothing := by
  intro c s t f hflag h
  obtain ⟨e, rfl, hraise⟩ | ⟨i, hwf, hexec, hstep⟩ :=
    stepWith_of_same_fetch (s := s) (s' := s.setFl f) rfl rfl rfl h
  · exact ⟨_, hraise, rfl, .inr ⟨rfl, rfl⟩⟩
  · obtain hcmp | ⟨hkept, hother⟩ := exec_setFl hwf hexec hflag
    · exact ⟨t, hstep.trans hcmp, rfl, .inl rfl⟩
    · exact ⟨_, hstep.trans hother, rfl, .inr ⟨hkept, rfl⟩⟩

/-- Settles O48: a raise writes an ERR of its own and no OUT, and a completed instruction keeps ERR and appends to
OUT. -/
theorem outputAndErrorRecordSteerNothing : Obligations.OutputAndErrorRecordSteerNothing := by
  intro c s t o e h
  obtain ⟨x, rfl, hraise⟩ | ⟨i, hwf, hexec, hstep⟩ :=
    stepWith_of_same_fetch (s := s) (s' := (s.setOut o).setErr e) rfl rfl rfl h
  · exact ⟨_, [], hraise, (List.append_nil _).symm, (List.append_nil _).symm, rfl, .inl rfl⟩
  · obtain ⟨added, hout, hexec'⟩ := exec_setOut_setErr hwf hexec o e
    exact ⟨_, added, hstep.trans hexec', hout, rfl, rfl, .inr ⟨rfl, exec_err_of_wf hwf hexec⟩⟩

/-! ### Registers outside the table's columns -/

theorem setReg_setReg_same (s : State) (r : Reg) (v w : Byte) : (s.setReg r v).setReg r w = s.setReg r w :=
  state_ext _ _ (fun q => by simp only [reg_setReg]; split <;> rfl) rfl rfl rfl rfl rfl rfl

theorem setReg_comm (s : State) {r q : Reg} (v w : Byte) (h : r ≠ q) :
    (s.setReg r v).setReg q w = (s.setReg q w).setReg r v := by
  refine state_ext _ _ (fun p => ?_) rfl rfl rfl rfl rfl rfl
  simp only [reg_setReg]
  split
  · subst p
    rw [if_neg h.symm]
  · rfl

theorem setReg_reg_self (s : State) (r : Reg) : s.setReg r (s.reg r) = s :=
  state_ext _ _ (fun q => by rw [reg_setReg]; split <;> simp_all) rfl rfl rfl rfl rfl rfl

theorem spDec_setReg (s : State) {r : Reg} (v : Byte) (h : r ≠ spReg) :
    spDec (s.setReg r v) = (spDec s).setReg r v := by
  rw [spDec, sp_setReg_of_ne s v h, setReg_comm s _ _ h, spDec]

theorem spInc_setReg (s : State) {r : Reg} (v : Byte) (h : r ≠ spReg) :
    spInc (s.setReg r v) = (spInc s).setReg r v := by
  rw [spInc, sp_setReg_of_ne s v h, setReg_comm s _ _ h, spInc]

/-- A push whose value does not depend on register `r` passes another value of `r` through. -/
theorem pushed_setReg {value value' : State → Addr} {s : State} {r : Reg} {v : Byte} (h : r ≠ spReg)
    (hvalue : value' ((spDec s).setReg r v) = value (spDec s)) :
    pushed value' (s.setReg r v) = (pushed value s).setReg r v := by
  simp only [pushed, pushAddress, spDec_setReg s v h, hvalue]
  rw [State.sp, reg_setReg_other _ _ _ _ h.symm]
  rfl

@[simp] theorem regsNamed_nil : regsNamed [] = [] := rfl

@[simp] theorem regsNamed_cons (a : Reg) (bs : List Byte) : regsNamed (regByte a :: bs) = a :: regsNamed bs := by
  simp [regsNamed]

/-- A well-formed instruction writes no register outside the "writes" column. -/
theorem exec_regsSameBut {i : Instr} {s t : State} (hwf : i.wf = true) (h : exec i s = .next t) :
    RegsSameBut (regsWritten i) s t := by
  cases namesRegs_of_wf hwf with
  | hlt | prn a | cmp a b | jmp a =>
    simp only [exec_hlt, exec_prn_regByte, exec_cmp_eq, exec_jmp_regByte, Host.Outcome.next.injEq] at h
    subst h
    exact fun _ _ => rfl
  | jeq a | jne a =>
    simp only [exec_jeq_regByte, exec_jne_regByte, Host.Outcome.next.injEq] at h
    subst h
    split
    · exact fun _ _ => rfl
    · exact fun _ _ => rfl
  | ldi a imm | mul a b | add a b =>
    simp only [exec_ldi_regByte, exec_mul_eq, exec_add_eq, Host.Outcome.next.injEq] at h
    subst h
    exact regsSameBut_setReg s _ (by simp [regsWritten])
  | push a | call a =>
    simp only [exec_push_regByte, exec_call_regByte, Host.Outcome.next.injEq] at h
    subst h
    exact regsSameBut_spDec s
  | pop a =>
    obtain ⟨u, hu, -, -, hregs, -⟩ := popLoadsFromTheStackPointer a s
    cases hu.symm.trans h
    simpa [regsWritten] using hregs
  | ret =>
    cases (exec_ret s).symm.trans h
    exact regsSameBut_spInc s

/-- With another value in a register outside the "reads" column, a well-formed instruction leaves the same state, but
for that register where the instruction does not write it. -/
theorem exec_setReg_unread {i : Instr} {s t : State} {r : Reg} (v : Byte) (hwf : i.wf = true) (hr : r ∉ regsRead i s)
    (h : exec i s = .next t) :
    (r ∉ regsWritten i ∧ exec i (s.setReg r v) = .next (t.setReg r v)) ∨
    (r ∈ regsWritten i ∧ exec i (s.setReg r v) = .next t) := by
  cases namesRegs_of_wf hwf with
  | hlt =>
    cases (exec_hlt s).symm.trans h
    exact .inl ⟨List.not_mem_nil, rfl⟩
  | ldi a imm =>
    cases (exec_ldi_regByte a imm s).symm.trans h
    by_cases ha : r = a
    · subst ha
      exact .inr ⟨by simp [regsWritten], by rw [exec_ldi_regByte, setReg_setReg_same]⟩
    · exact .inl ⟨by simpa [regsWritten] using ha, by rw [exec_ldi_regByte, setReg_comm s _ _ ha]; rfl⟩
  | prn a =>
    cases (exec_prn_regByte a s).symm.trans h
    have ha : r ≠ a := by simpa [regsRead] using hr
    exact .inl ⟨List.not_mem_nil, by rw [exec_prn_regByte, reg_setReg_other _ _ _ _ ha.symm]; rfl⟩
  | mul a b | add a b =>
    obtain ⟨ha, hb⟩ : r ≠ a ∧ r ≠ b := by simpa [regsRead] using hr
    refine .inl ⟨by simpa [regsWritten] using ha, ?_⟩
    simp only [exec_mul_eq, exec_add_eq, Host.Outcome.next.injEq] at h ⊢
    subst h
    rw [reg_setReg_other _ _ _ _ ha.symm, reg_setReg_other _ _ _ _ hb.symm, setReg_comm s _ _ ha]
    rfl
  | cmp a b =>
    cases (exec_cmp_eq a b s).symm.trans h
    obtain ⟨ha, hb⟩ : r ≠ a ∧ r ≠ b := by simpa [regsRead] using hr
    refine .inl ⟨List.not_mem_nil, ?_⟩
    rw [exec_cmp_eq, reg_setReg_other _ _ _ _ ha.symm, reg_setReg_other _ _ _ _ hb.symm]
    rfl
  | push a =>
    cases (exec_push_regByte a s).symm.trans h
    obtain ⟨hsp, ha⟩ : r ≠ spReg ∧ r ≠ a := by simpa [regsRead] using hr
    refine .inl ⟨by simpa [regsWritten] using hsp, ?_⟩
    rw [exec_push_regByte, pushed_setReg (value := fun u => zext9 (u.reg a)) hsp
      (congrArg zext9 (reg_setReg_other _ _ _ v ha.symm))]
    rfl
  | pop a =>
    cases (exec_pop_regByte a s).symm.trans h
    have hsp : r ≠ spReg := by simpa [regsRead] using hr
    rw [exec_pop_regByte, sp_setReg_of_ne s v hsp, setReg_mem]
    by_cases ha : r = a
    · subst ha
      exact .inr ⟨by simp [regsWritten], by rw [setReg_setReg_same]⟩
    · exact .inl ⟨by simp [regsWritten, ha, hsp], by rw [setReg_comm s _ _ ha, spInc_setReg _ _ hsp]; rfl⟩
  | call a =>
    cases (exec_call_regByte a s).symm.trans h
    obtain ⟨hsp, ha⟩ : r ≠ spReg ∧ r ≠ a := by simpa [regsRead] using hr
    refine .inl ⟨by simpa [regsWritten] using hsp, ?_⟩
    rw [exec_call_regByte, pushed_setReg (value := fun _ => returnAddress s) hsp rfl, spDec_setReg s v hsp,
      reg_setReg_other _ _ _ _ ha.symm]
    rfl
  | ret =>
    cases (exec_ret s).symm.trans h
    have hsp : r ≠ spReg := by simpa [regsRead] using hr
    refine .inl ⟨by simpa [regsWritten] using hsp, ?_⟩
    rw [exec_ret, sp_setReg_of_ne s v hsp, spInc_setReg s v hsp]
    rfl
  | jmp a =>
    cases (exec_jmp_regByte a s).symm.trans h
    have ha : r ≠ a := by simpa [regsRead] using hr
    exact .inl ⟨List.not_mem_nil, by rw [exec_jmp_regByte, reg_setReg_other _ _ _ _ ha.symm]; rfl⟩
  | jeq a =>
    cases (exec_jeq_regByte a s).symm.trans h
    refine .inl ⟨List.not_mem_nil, ?_⟩
    rw [exec_jeq_regByte, equalFlag_setReg]
    split
    · have ha : r ≠ a := by simpa [regsRead, *] using hr
      rw [reg_setReg_other _ _ _ _ ha.symm]
      rfl
    · rfl
  | jne a =>
    cases (exec_jne_regByte a s).symm.trans h
    refine .inl ⟨List.not_mem_nil, ?_⟩
    rw [exec_jne_regByte, equalFlag_setReg]
    split
    · rfl
    · have ha : r ≠ a := by simpa [regsRead, *] using hr
      rw [reg_setReg_other _ _ _ _ ha.symm]
      rfl

/-- Settles O47: the frame of the "writes" column, the non-interference of the "reads" column, the operand bytes that
name registers, and the result in each register of the "writes" column. -/
theorem registersReadAndWrittenAsTabled : Obligations.RegistersReadAndWrittenAsTabled := by
  refine ⟨fun _ _ _ => exec_regsSameBut, fun i s t r v hwf hr h => ?_, le_seven_iff_exists_regByte, fun a b imm s =>
    ⟨?_, ?_, ?_, ?_, ?_, ?_, ?_⟩⟩
  · obtain ⟨hout, hu⟩ | ⟨hin, hu⟩ := exec_setReg_unread v hwf hr h
    · exact ⟨_, hu, by rw [reg_setReg_same], fun _ => reg_setReg_same t r v, fun hin => absurd hin hout⟩
    · exact ⟨t, hu, (setReg_reg_self t r).symm, fun hout => absurd hin hout, fun _ => rfl⟩
  · exact ⟨_, exec_ldi_regByte a imm s, reg_setReg_same s a imm⟩
  · obtain ⟨t, ht, hsum, -⟩ := addWritesTheSumModulo256 a b s
    exact ⟨t, ht, hsum⟩
  · obtain ⟨t, ht, hproduct, -⟩ := multiplyWritesTheProductModulo256 a b s
    exact ⟨t, ht, hproduct⟩
  · refine ⟨_, exec_pop_regByte a s, ?_, fun ha => by rw [sp_advance, sp_spInc, sp_setReg_of_ne s _ ha]⟩
    rw [reg_advance]
    split
    · subst a
      rw [reg_spInc, if_pos rfl, sp_setReg_spReg]
    · rename_i ha
      rw [reg_spInc_of_ne _ ha, reg_setReg_same]
  · exact ⟨_, exec_push_regByte a s, by rw [sp_advance, sp_pushed]⟩
  · exact ⟨_, exec_call_regByte a s, by rw [sp_jumpTo, sp_pushed]⟩
  · exact ⟨_, exec_ret s, by rw [sp_jumpTo, sp_spInc]⟩

end Sys2Proof.Machine
